-- ==== Sys2Proof/Word.lean ====
section
/-! DEFINITION. The machine's word and its register numbers (00_scope.md R4, R6). -/

namespace Sys2Proof

/-- Every register value, memory byte, operand byte and opcode: an unsigned 8-bit value (R6). -/
abbrev Byte := BitVec 8

/-- A register number that passed the check of `ridx`: 0 to 7 (R13). -/
abbrev Reg := Fin 8

end Sys2Proof
end

