-- ==== Sys2Proof/Syntax.lean ====
section
/-! DEFINITION. The 18 instructions (30_encoding.md R50, spec/opcode_table.json, in the table's order)
and the current-instruction latch (10_state.md R26). -/

namespace Sys2Proof

/-- The decoded instruction with the operand bytes it uses.
A register operand is the whole operand BYTE, not a register number: whether it names a register is checked when the
instruction uses it (30_encoding.md R47, decision D7), so a byte above 7 is part of the syntax.
Unused operand bytes are no part of it (R48). -/
inductive Instr where
  /-- 0x01, F1: halt (R89). -/
  | hlt
  /-- 0x11, F1: return (R78). -/
  | ret
  /-- 0x45, F2R: push `x[a]` (R75). -/
  | push (a : Byte)
  /-- 0x46, F2R: pop into `x[a]` (R76). -/
  | pop (a : Byte)
  /-- 0x47, F2R: print `x[a]` as a decimal number (R87). -/
  | prn (a : Byte)
  /-- 0x48, F2R: print `x[a]` as a character (R88). -/
  | pra (a : Byte)
  /-- 0x50, F2R: call the address in `x[a]` (R77). -/
  | call (a : Byte)
  /-- 0x54, F2R: jump to the address in `x[a]` (R80). -/
  | jmp (a : Byte)
  /-- 0x55, F2R: jump if Equal is set (R81). -/
  | jeq (a : Byte)
  /-- 0x56, F2R: jump if Equal is clear (R82). -/
  | jne (a : Byte)
  /-- 0x65, F2R: increment `x[a]` (R70). -/
  | inc (a : Byte)
  /-- 0x66, F2R: decrement `x[a]` (R71). -/
  | dec (a : Byte)
  /-- 0x82, F3RI: load the immediate byte into `x[a]` (R84). -/
  | ldi (a imm : Byte)
  /-- 0x83, F3RR: load `x[a]` from the address in `x[b]` (R85). -/
  | ld (a b : Byte)
  /-- 0x84, F3RR: store `x[b]` at the address in `x[a]` (R86). -/
  | st (a b : Byte)
  /-- 0xA0, F3RR: add `x[b]` to `x[a]` (R68). -/
  | add (a b : Byte)
  /-- 0xA2, F3RR: multiply `x[a]` by `x[b]` (R69). -/
  | mul (a b : Byte)
  /-- 0xA7, F3RR: compare `x[a]` with `x[b]` (R72). -/
  | cmp (a b : Byte)
  deriving DecidableEq, Repr

/-- The current-instruction latch: the three bytes the fetch unit read at `pc`, `pc + 1`, `pc + 2` (R26, R59, R61).
It is a value of one step and no state: R26 says its value never carries from one instruction to the next. -/
structure Latch where
  op : Byte
  a : Byte
  b : Byte
  deriving DecidableEq, Repr

end Sys2Proof
end

