-- ==== Sys2Proof/Machine/Types.lean ====
section
/-! DEFINITION. The types of the pieces of state: flags, console events, exceptions and the fault record. -/

namespace Sys2Proof.Machine

/-- The flag register: three one-bit flags with no byte layout (10_state.md R20, R11; 90_conflicts.md C2). -/
structure Flags where
  /-- `FL.E`, Equal. -/
  e : Bool
  /-- `FL.L`, LessThan. -/
  l : Bool
  /-- `FL.G`, GreaterThan. -/
  g : Bool
  deriving DecidableEq, Repr

/-- A console output event (10_state.md R27, 60_exceptions.md R99). -/
inductive Event where
  /-- `(DEC, v)` from PRN. -/
  | dec (v : Byte)
  /-- `(CHR, v)` from PRA. -/
  | chr (v : Byte)
  deriving DecidableEq, Repr

/-- Which bound an AddressOutOfRange broke (60_exceptions.md R92). -/
inductive Space where
  | memory
  | register
  | stackPointer
  deriving DecidableEq, Repr

/-- The names of the exceptions (60_exceptions.md R90). -/
inductive ExcName where
  | undefinedOpcode
  | addressOutOfRange
  | unsupportedALUOperation
  deriving DecidableEq, Repr

/-- An exception being raised, with its own information: `raise E(info)` of 00_scope.md R7. -/
inductive Exn where
  /-- The decoder met an opcode byte not in R50 (R91). -/
  | undefinedOpcode
  /-- An access outside its bounds (R92). -/
  | addressOutOfRange (space : Space) (value : Int)
  /-- The ALU was given a tag it does not know; no program can raise it (41_alu.md R73). -/
  | unsupportedALUOperation (tag : Nat)
  deriving DecidableEq, Repr

/-- The fault record `{ code, name, pc, op, space, value }` of 60_exceptions.md R93, and the `tag` that R90 gives the
record of UnsupportedALUOperation. -/
structure FaultRecord where
  code : Nat
  name : ExcName
  /-- The address of the faulting instruction. -/
  pc : Nat
  /-- The byte fetched at `pc`; none when there is no memory at `pc`. -/
  op : Option Byte
  space : Option Space
  value : Option Int
  tag : Option Nat
  deriving DecidableEq, Repr

/-- The core's status as the host sees it (10_state.md R25, 00_scope.md R9). -/
inductive Status where
  | running
  | halted
  | faulted
  deriving DecidableEq, Repr

end Sys2Proof.Machine
end

