-- ==== Sys2Proof/Config.lean ====
section
/-! DEFINITION. What the hardware fixes (00_scope.md R4) and the open parameter CONSOLE_RENDER (R5).
The parameters SP_REG and FLAGS_RESET and the reset values stand in Machine/Parameters.lean. -/

namespace Sys2Proof.Config

/-- 256 bytes of memory, addresses 0x00-0xFF (R4, R29). -/
abbrev memSize : Nat := 256

/-- The fetch unit reads three bytes on every cycle (R4, 40_engine.md R59). -/
abbrev fetchWidth : Nat := 3

/-- CONSOLE_RENDER: how the host renders the output stream as text: line breaks, separators, control characters,
encoding (R5, 60_exceptions.md R99, decision D11). OPEN: a value with no body, so no statement can rest on it.
Log entry 3; safe. -/
opaque consoleRender : List Sys2Proof.Machine.Event → String

end Sys2Proof.Config
end

