-- ==== Sys2Proof/Machine/Parameters.lean ====
section
/-! DEFINITION. The parameters SP_REG and FLAGS_RESET (00_scope.md R5) and the reset values the spec states (R4). -/

namespace Sys2Proof.Config

/-- SP_REG, the register that is the stack pointer: 7 in this spec, from general knowledge (R5, 10_state.md R17, D1).
PRESUMED, unsafe: log entry 1. The operations that use the stack pointer take the register as an argument. -/
def spReg : Reg := 7

/-- The FLAGS_RESET that `State.reset` takes: all three flags 0. The spec leaves it OPEN (10_state.md R21, D2).
DESIGN CHOICE, unsafe: log entry 2. `State.resetWith` takes any value, and statements about reset are made of that. -/
def flagsReset : Sys2Proof.Machine.Flags := ⟨false, false, false⟩

/-- The reset value of the stack pointer, the sentinel 0xF4 (R4, 10_state.md R16). -/
def spResetValue : Byte := 0xF4

/-- The reset value of every other register (10_state.md R16). -/
def regResetValue : Byte := 0

/-- The reset value of `pc` (R4, 10_state.md R18). -/
def pcResetValue : Nat := 0

end Sys2Proof.Config
end

