-- ==== Sys2Proof/Machine/State.lean ====
section
/-! DEFINITION. The architectural state (10_state.md R10), its value after reset (70_reset_and_hazards.md R105), and the
reasons a step can stop. -/

namespace Sys2Proof.Machine

/-- Memory as (address, byte) pairs in one canonical form: addresses strictly rising, none listed with the byte 0 that an
unlisted address reads as (10_state.md R23: reset sets every cell to 0). The operations are in Machine/Memory.lean. -/
abbrev Memory := List Host.Cell

/-- The core's architectural state: R10 lists it and says "Nothing else is state". -/
structure State where
  /-- The general registers `x[0]` to `x[7]` (R13). The stack pointer is one of them (R17). -/
  regs : Vector Byte 8
  /-- The program counter: an integer, 0 to 0x100 in every reachable state (R18). -/
  pc : Nat
  /-- The flag register (R20). -/
  fl : Flags
  /-- The memory (R23). -/
  mem : Memory
  /-- The running flag (R24). -/
  running : Bool
  /-- The fault record (R28). -/
  fault : Option FaultRecord
  /-- The console output stream, oldest event first (R27). -/
  out : List Event
  deriving DecidableEq, Repr

/-- Why a step has no next state. -/
inductive Fault where
  /-- Raised by `step` alone, in a state with `running = 0` and no fault record: the core is Halted and has no step
  (40_engine.md R57). Safe: the hardware does not go on either. -/
  | halted
  /-- Raised by `step` alone, in a state with `running = 0` and this fault record: the core is Faulted and has no step
  (40_engine.md R57, 60_exceptions.md R93). Safe: the hardware does not go on either. -/
  | faulted (record : FaultRecord)
  deriving DecidableEq, Repr

/-- Why an instruction or a host operation is refused. -/
inductive Refusal where
  /-- An instruction the model gives no meaning, by its mnemonic. Raised by no arm: every instruction has its meaning.
  Safe. -/
  | notModelled (mnemonic : String)
  /-- Raised by `Session.step` alone, never by `step`: after a loader failure the core is not started
  (70_reset_and_hazards.md R108). Safe. -/
  | coreNotStarted
  deriving DecidableEq, Repr

/-- What a step or an instruction answers. -/
abbrev Answer := Host.Outcome State Fault Refusal

/-- The state right after `reset()` (R105) on a core whose stack pointer is register `sp` and whose flags come up as
`fl`, the spec's parameters SP_REG and FLAGS_RESET (00_scope.md R5). -/
def State.resetWith (sp : Reg) (fl : Flags) : State where
  regs := (Vector.replicate 8 Config.regResetValue).set sp.val Config.spResetValue sp.isLt
  pc := Config.pcResetValue
  fl := fl
  mem := []
  running := true
  fault := none
  out := []

/-- The state right after `reset()`, at the model's values of SP_REG and FLAGS_RESET (log entries 1 and 2). -/
def State.reset : State := State.resetWith Config.spReg Config.flagsReset

end Sys2Proof.Machine
end

