-- ==== Sys2Proof/Machine/Memory.lean ====
section
/-! DEFINITION. The byte memory (20_memory.md R29, R30, R36): reading and writing one byte, loading a byte sequence,
and the canonical form. -/

namespace Sys2Proof.Machine

/-- What an address reads as that nothing has written since reset: 0 (10_state.md R23, 20_memory.md R30, R40). -/
def Memory.unlisted : Byte := 0

/-- The byte at address `a` (R40: the most recent write, else what reset left). -/
def Memory.read : Memory → Nat → Byte
  | [], _ => Memory.unlisted
  | (b, w) :: m, a => if b = a then w else Memory.read m a

/-- The memory without an entry for `a`. -/
def Memory.erase (m : Memory) (a : Nat) : Memory := m.filter fun c => decide (c.1 ≠ a)

/-- Puts an entry before the first entry of a higher address. -/
def Memory.place : Memory → Nat → Byte → Memory
  | [], a, v => [(a, v)]
  | (b, w) :: m, a, v => if a < b then (a, v) :: (b, w) :: m else (b, w) :: Memory.place m a v

/-- Writes the byte `v` at address `a` and keeps the canonical form: writing what an unlisted address reads as removes
the entry. -/
def Memory.write (m : Memory) (a : Nat) (v : Byte) : Memory :=
  if v = Memory.unlisted then m.erase a else (m.erase a).place a v

/-- Writes a byte sequence at ascending addresses from `a` (R31). -/
def Memory.writeBytes : Memory → Nat → List Byte → Memory
  | m, _, [] => m
  | m, a, v :: vs => Memory.writeBytes (m.write a v) (a + 1) vs

/-- The canonical form from address `lo` on: strictly rising addresses below 256, no entry that reads as an unlisted
address does. -/
def Memory.wfFrom : Nat → Memory → Bool
  | _, [] => true
  | lo, (b, w) :: m =>
    decide (lo ≤ b) && decide (b < Config.memSize) && decide (w ≠ Memory.unlisted) && Memory.wfFrom (b + 1) m

/-- The canonical form of a memory. -/
def Memory.wf (m : Memory) : Bool := Memory.wfFrom 0 m

end Sys2Proof.Machine
end

