-- ==== Sys2Proof/Machine/Ops.lean ====
section
/-! DEFINITION. The pseudocode primitives of 00_scope.md R7 over the state, and taking an exception
(60_exceptions.md R93). There is no return from an exception (R97). -/

namespace Sys2Proof.Machine

/-- `x[i]` (R7). No register is hardwired (10_state.md R15). -/
def State.getReg (s : State) (i : Reg) : Byte := s.regs[i.val]

/-- `x[i] <- v` (R7). -/
def State.setReg (s : State) (i : Reg) (v : Byte) : State := { s with regs := s.regs.set i.val v i.isLt }

/-- `pc <- t` for a whole new value of `pc` (R7). -/
def State.setPc (s : State) (t : Nat) : State := { s with pc := t }

/-- `pc <- pc + n`: the auto-advance of a handler (40_engine.md R64); exact, never wrapping (10_state.md R18). -/
def State.advance (s : State) (n : Nat) : State := s.setPc (s.pc + n)

/-- `pc <- v` for a byte: the target of a jump, call or return (43_control.md R79). -/
def State.jumpTo (s : State) (v : Byte) : State := s.setPc v.toNat

/-- Writes all three flags at once (10_state.md R20). -/
def State.setFlags (s : State) (fl : Flags) : State := { s with fl := fl }

/-- Replaces the memory. -/
def State.setMem (s : State) (m : Memory) : State := { s with mem := m }

/-- `Emit(kind, v)`: appends the event to the output stream (R7, R99: the port always accepts). -/
def State.emit (s : State) (e : Event) : State := { s with out := s.out ++ [e] }

/-- `running <- 0` (R7). -/
def State.stop (s : State) : State := { s with running := false }

/-- The address is in memory (20_memory.md R38). -/
def inMemory (addr : Int) : Bool := decide (0 ≤ addr) && decide (addr < Config.memSize)

/-- `ridx(v)`: the register an operand byte names, or AddressOutOfRange(Register, v) (R7). -/
def ridx (v : Byte) : Except Exn Reg :=
  if h : v.toNat < 8 then .ok ⟨v.toNat, h⟩ else .error (.addressOutOfRange .register v.toNat)

/-- `MemRead(addr, 1)`; the address is an integer and never wraps (R7, R38). -/
def State.memRead (s : State) (addr : Int) : Except Exn Byte :=
  if inMemory addr then .ok (s.mem.read addr.toNat) else .error (.addressOutOfRange .memory addr)

/-- `MemWrite(addr, 1, v)` (R7, R38). -/
def State.memWrite (s : State) (addr : Int) (v : Byte) : Except Exn State :=
  if inMemory addr then .ok (s.setMem (s.mem.write addr.toNat v)) else .error (.addressOutOfRange .memory addr)

/-- The name of an exception (60_exceptions.md R90). -/
def Exn.name : Exn → ExcName
  | .undefinedOpcode => .undefinedOpcode
  | .addressOutOfRange _ _ => .addressOutOfRange
  | .unsupportedALUOperation _ => .unsupportedALUOperation

/-- The code of an exception (60_exceptions.md R90, decision D10). -/
def ExcName.code : ExcName → Nat
  | .undefinedOpcode => 1
  | .addressOutOfRange => 2
  | .unsupportedALUOperation => 3

/-- The bound an exception names: for AddressOutOfRange only (R93). -/
def Exn.space : Exn → Option Space
  | .addressOutOfRange sp _ => some sp
  | _ => none

/-- The value an exception names: for AddressOutOfRange only (R93). -/
def Exn.value : Exn → Option Int
  | .addressOutOfRange _ v => some v
  | _ => none

/-- The ALU tag an exception names: for UnsupportedALUOperation only (R90). -/
def Exn.tag : Exn → Option Nat
  | .unsupportedALUOperation t => some t
  | _ => none

/-- The byte fetched at `pc`; none where there is no memory at `pc` (R93: "It is `none` when `pc = 0x100`"). -/
def State.fetchedOp (s : State) : Option Byte :=
  if inMemory s.pc then some (s.mem.read s.pc) else none

/-- The record of the exception `e` raised by the instruction at `pc` of `s`, the state before that instruction (R93). -/
def State.recordOf (s : State) (e : Exn) : FaultRecord where
  code := e.name.code
  name := e.name
  pc := s.pc
  op := s.fetchedOp
  space := e.space
  value := e.value
  tag := e.tag

/-- TAKING AN EXCEPTION (60_exceptions.md R93), the one operation of every exception. `s` is the state BEFORE the
faulting instruction's fetch: none of the instruction's writes take effect (00_scope.md R8), `fault` receives the record
and `running` is cleared; `pc` keeps its value, nothing is saved and control goes to no handler (R96). -/
def State.takeException (s : State) (e : Exn) : State :=
  { s with fault := some (s.recordOf e), running := false }

/-- The end of a handler started in `s`: what it computed, or the exception it raised, taken (00_scope.md R8). -/
def State.complete (s : State) (r : Except Exn State) : Answer :=
  match r with
  | .ok t => .next t
  | .error e => .next (s.takeException e)

/-- The status computed from `running` and `fault` (10_state.md R25). -/
def State.status (s : State) : Status :=
  if s.running then .running else if s.fault.isSome then .faulted else .halted

/-- The text the spec itself fixes for one event: the decimal digits of `v`, or the character with code point `v`
(60_exceptions.md R99, 44_data_io.md R87, R88). -/
def Event.shown : Event → String
  | .dec v => toString v.toNat
  | .chr v => String.singleton (Char.ofNat v.toNat)

/-- The console's text of the whole output stream, through the open parameter CONSOLE_RENDER (R99). -/
def State.consoleText (s : State) : String := Config.consoleRender s.out

end Sys2Proof.Machine
end

