-- ==== Sys2Proof/Machine/Operands.lean ====
section
/-! DEFINITION. The operand forms (30_encoding.md R45, R47), the one addressing mode (44_data_io.md R83), and the moves of
the stack pointer (42_stack.md R74). -/

namespace Sys2Proof.Machine

/-- The register operand of formats F2R and F3RI: byte A (R45, R47). -/
def regOperand (a : Byte) : Except Exn Reg := ridx a

/-- The register operands of format F3RR, checked A before B (60_exceptions.md R95). -/
def regPair (a b : Byte) : Except Exn (Reg × Reg) := do
  let i ← ridx a
  let j ← ridx b
  return (i, j)

/-- The immediate of format F3RI: the whole byte, as it is (R47). -/
def immOperand (b : Byte) : Byte := b

/-- The register-indirect effective address: the byte `x[r]`, with no offset, scaling or index (R83). -/
def State.effectiveAddr (s : State) (r : Reg) : Int := (s.getReg r).toNat

/-- The first half of a push on stack pointer `sp`: `t <- SP - 1`, AddressOutOfRange(Memory, -1) if `t < 0`, else
`SP <- t` (R75, R77). `t` is an integer: the stack pointer never wraps here (R74). -/
def State.decSP (s : State) (sp : Reg) : Except Exn State :=
  let t : Int := (s.getReg sp).toNat - 1
  if t < 0 then .error (.addressOutOfRange .memory t) else .ok (s.setReg sp (BitVec.ofInt 8 t))

/-- The second half of a pop on stack pointer `sp`: `t <- SP + 1`, AddressOutOfRange(StackPointer, 0x100) if `t > 0xFF`,
else `SP <- t` (R76, R78). -/
def State.incSP (s : State) (sp : Reg) : Except Exn State :=
  let t : Int := (s.getReg sp).toNat + 1
  if t > 0xFF then .error (.addressOutOfRange .stackPointer t) else .ok (s.setReg sp (BitVec.ofInt 8 t))

end Sys2Proof.Machine
end

