-- ==== Sys2Proof/Machine/Flags.lean ====
section
/-! DEFINITION. The flag computation of CMP (41_alu.md R72) and the conditions of JEQ and JNE (43_control.md R79). -/

namespace Sys2Proof.Machine

/-- The flags of comparing `u` with `v` as unsigned bytes: "Less" means `u < v` (R72, decision D18). -/
def compareFlags (u v : Byte) : Flags where
  e := decide (u.toNat = v.toNat)
  l := decide (u.toNat < v.toNat)
  g := decide (v.toNat < u.toNat)

/-- JEQ jumps if `FL.E = 1` (43_control.md R81). -/
def Flags.equal (fl : Flags) : Bool := fl.e

/-- JNE jumps if `FL.E = 0` (43_control.md R82). -/
def Flags.notEqual (fl : Flags) : Bool := !fl.e

/-- Exactly one flag is set: what any CMP leaves (10_state.md R22). -/
def Flags.oneHot (fl : Flags) : Bool :=
  (fl.e && !fl.l && !fl.g) || (!fl.e && fl.l && !fl.g) || (!fl.e && !fl.l && fl.g)

end Sys2Proof.Machine
end

