-- ==== Sys2Proof/Machine/Alu.lean ====
section
/-! DEFINITION. The ALU function block and the meanings of ADD, MUL, INC, DEC, CMP (41_alu.md R67-R73). -/

namespace Sys2Proof.Machine

/-- The operation tag the dispatch multiplexer hands the ALU (R67). The hardware has five; `other` stands for a tag the
ALU does not know (R73), which no instruction passes. -/
inductive AluTag where
  | add
  | mul
  | inc
  | dec
  | cmp
  | other (tag : Nat)
  deriving DecidableEq, Repr

/-- What the ALU writes: the register `x[a]`, or the three flags, never both (R67). -/
inductive AluResult where
  | reg (v : Byte)
  | flags (fl : Flags)
  deriving DecidableEq, Repr

/-- The ALU, a pure function block (R67): `u` is `x[a]`, `v` is `x[b]` (unused by INC and DEC). Exact integer arithmetic,
narrowed modulo 256 at the end (R68-R71); an unknown tag raises UnsupportedALUOperation (R73). -/
def alu (t : AluTag) (u v : Byte) : Except Exn AluResult :=
  match t with
  | .add => .ok (.reg (BitVec.ofNat 8 (u.toNat + v.toNat)))
  | .mul => .ok (.reg (BitVec.ofNat 8 (u.toNat * v.toNat)))
  | .inc => .ok (.reg (BitVec.ofNat 8 (u.toNat + 1)))
  | .dec => .ok (.reg (BitVec.ofInt 8 (u.toNat - 1)))
  | .cmp => .ok (.flags (compareFlags u v))
  | .other tag => .error (.unsupportedALUOperation tag)

/-- Writes the ALU's result to the register `x[i]` or to the flags (R67). -/
def State.aluWrite (s : State) (i : Reg) : AluResult → State
  | .reg v => s.setReg i v
  | .flags fl => s.setFlags fl

/-- An ALU instruction of format F3RR: operands checked A then B, advance 3 (R67, decision D5). -/
def State.aluPair (s : State) (t : AluTag) (a b : Byte) : Except Exn State := do
  let (i, j) ← regPair a b
  let r ← alu t (s.getReg i) (s.getReg j)
  return (s.aluWrite i r).advance 3

/-- An ALU instruction of format F2R: one operand, byte B unused, advance 2 (R67, R48, decision D5). -/
def State.aluSingle (s : State) (t : AluTag) (a : Byte) : Except Exn State := do
  let i ← regOperand a
  let r ← alu t (s.getReg i) 0
  return (s.aluWrite i r).advance 2

/-- ADD (R68). -/
def execAdd (a b : Byte) (s : State) : Answer := s.complete (s.aluPair .add a b)

/-- MUL (R69). -/
def execMul (a b : Byte) (s : State) : Answer := s.complete (s.aluPair .mul a b)

/-- INC (R70). -/
def execInc (a : Byte) (s : State) : Answer := s.complete (s.aluSingle .inc a)

/-- DEC (R71). -/
def execDec (a : Byte) (s : State) : Answer := s.complete (s.aluSingle .dec a)

/-- CMP (R72): the ALU's result goes to the flags, no register is written. -/
def execCmp (a b : Byte) (s : State) : Answer := s.complete (s.aluPair .cmp a b)

end Sys2Proof.Machine
end

