-- ==== Sys2Proof/Machine/Control.lean ====
section
/-! DEFINITION. The meanings of JMP, JEQ, JNE (43_control.md R79-R82). -/

namespace Sys2Proof.Machine

/-- A taken jump: the register operand is checked and read, no auto-advance (R79). -/
def State.jumpReg (s : State) (a : Byte) : Except Exn State := do
  let i ← regOperand a
  return s.jumpTo (s.getReg i)

/-- A conditional jump: not taken, it advances by 2 and its operand is not checked (R79, decision D7). -/
def State.jumpIf (s : State) (taken : Bool) (a : Byte) : Except Exn State :=
  if taken then s.jumpReg a else .ok (s.advance 2)

/-- JMP (R80). -/
def execJmp (a : Byte) (s : State) : Answer := s.complete (s.jumpReg a)

/-- JEQ (R81). -/
def execJeq (a : Byte) (s : State) : Answer := s.complete (s.jumpIf s.fl.equal a)

/-- JNE (R82). -/
def execJne (a : Byte) (s : State) : Answer := s.complete (s.jumpIf s.fl.notEqual a)

end Sys2Proof.Machine
end

