-- ==== Sys2Proof/Machine/DataIo.lean ====
section
/-! DEFINITION. The meanings of LDI, LD, ST, PRN, PRA, HLT (44_data_io.md R83-R89). -/

namespace Sys2Proof.Machine

/-- Sends `x[a]` to the console output port as an event of the given kind (R83, 60_exceptions.md R99). -/
def State.print (s : State) (kind : Byte → Event) (a : Byte) : Except Exn State := do
  let i ← regOperand a
  return (s.emit (kind (s.getReg i))).advance 2

/-- The handler of LDI (R84). -/
def State.ldiHandler (s : State) (a imm : Byte) : Except Exn State := do
  let i ← regOperand a
  return (s.setReg i (immOperand imm)).advance 3

/-- The handler of LD (R85). -/
def State.ldHandler (s : State) (a b : Byte) : Except Exn State := do
  let (i, j) ← regPair a b
  let v ← s.memRead (s.effectiveAddr j)
  return (s.setReg i v).advance 3

/-- The handler of ST (R86): operand A holds the address, operand B the value. -/
def State.stHandler (s : State) (a b : Byte) : Except Exn State := do
  let (i, j) ← regPair a b
  let s1 ← s.memWrite (s.effectiveAddr i) (s.getReg j)
  return s1.advance 3

/-- LDI (R84). -/
def execLdi (a imm : Byte) (s : State) : Answer := s.complete (s.ldiHandler a imm)

/-- LD (R85). -/
def execLd (a b : Byte) (s : State) : Answer := s.complete (s.ldHandler a b)

/-- ST (R86). -/
def execSt (a b : Byte) (s : State) : Answer := s.complete (s.stHandler a b)

/-- PRN (R87). -/
def execPrn (a : Byte) (s : State) : Answer := s.complete (s.print .dec a)

/-- PRA (R88). -/
def execPra (a : Byte) (s : State) : Answer := s.complete (s.print .chr a)

/-- HLT (R89): clears the running flag; `pc` keeps the address of the HLT. -/
def execHlt (s : State) : Answer := s.complete (.ok s.stop)

end Sys2Proof.Machine
end

