-- ==== Sys2Proof/Machine/Stack.lean ====
section
/-! DEFINITION. The meanings of PUSH, POP, CALL, RET (42_stack.md R74-R78). Each handler takes the stack pointer's register
`sp` (SP_REG, 00_scope.md R5) as an argument; its meaning passes `Config.spReg`. -/

namespace Sys2Proof.Machine

/-- The push of R74: SP moves first, then the byte goes to the new SP; `val` is read in the state in which SP has moved
(00_scope.md R8, decision D9). -/
def State.pushByte (s : State) (sp : Reg) (val : State → Byte) : Except Exn State := do
  let s1 ← s.decSP sp
  s1.memWrite (s1.effectiveAddr sp) (val s1)

/-- PUSH (R75): `x[i]` is read after SP moved. -/
def State.pushHandler (s : State) (sp : Reg) (a : Byte) : Except Exn State := do
  let i ← regOperand a
  let s2 ← s.pushByte sp fun s1 => s1.getReg i
  return s2.advance 2

/-- POP (R76): SP is read again after `x[i]` was written. -/
def State.popHandler (s : State) (sp : Reg) (a : Byte) : Except Exn State := do
  let i ← regOperand a
  let v ← s.memRead (s.effectiveAddr sp)
  let s2 ← (s.setReg i v).incSP sp
  return s2.advance 2

/-- CALL (R77): pushes `pc + 2` as a byte (it fits wherever a fetch succeeds; log entry 5 for the rest), then jumps to
`x[i]`, read after SP moved. -/
def State.callHandler (s : State) (sp : Reg) (a : Byte) : Except Exn State := do
  let i ← regOperand a
  let s2 ← s.pushByte sp fun s1 => BitVec.ofNat 8 (s1.pc + 2)
  return s2.jumpTo (s2.getReg i)

/-- RET (R78). -/
def State.retHandler (s : State) (sp : Reg) : Except Exn State := do
  let v ← s.memRead (s.effectiveAddr sp)
  let s1 ← s.incSP sp
  return s1.jumpTo v

/-- PUSH (R75). -/
def execPush (a : Byte) (s : State) : Answer := s.complete (s.pushHandler Config.spReg a)

/-- POP (R76). -/
def execPop (a : Byte) (s : State) : Answer := s.complete (s.popHandler Config.spReg a)

/-- CALL (R77). -/
def execCall (a : Byte) (s : State) : Answer := s.complete (s.callHandler Config.spReg a)

/-- RET (R78). -/
def execRet (s : State) : Answer := s.complete (s.retHandler Config.spReg)

end Sys2Proof.Machine
end

