-- ==== Sys2Proof/WellFormed.lean ====
section
/-! DEFINITION. Well-formed instructions: those the assembly syntax of 30_encoding.md R55 can write,
whose register operands are `R0` to `R7`. The machine runs the others too (they raise, R47). -/

namespace Sys2Proof

/-- The byte names a register (10_state.md R13: "must be 0-7"). -/
def namesReg (v : Byte) : Bool := decide (v.toNat < 8)

/-- The operand bytes an instruction may use as register numbers (R45's format column). -/
def Instr.regOperands : Instr → List Byte
  | .hlt | .ret => []
  | .push a | .pop a | .prn a | .pra a | .call a | .jmp a | .jeq a | .jne a | .inc a | .dec a => [a]
  | .ldi a _ => [a]
  | .ld a b | .st a b | .add a b | .mul a b | .cmp a b => [a, b]

/-- Every register operand names a register (R55: "`Rn` is register `n`, 0-7"). An immediate may be any byte (R47). -/
def Instr.wellFormed (i : Instr) : Bool := i.regOperands.all namesReg

end Sys2Proof
end

