-- ==== Sys2Proof/Decode.lean ====
section
/-! DEFINITION. The decoder, the encoder and the facts of an encoding: length, operand count (30_encoding.md). -/

namespace Sys2Proof

/-- Why the decoder rejects a latch. -/
inductive DecodeError where
  /-- The opcode byte is none of the 18 of R50 (R53). The step then raises UndefinedOpcode (40_engine.md R62). -/
  | undefinedOpcode (op : Byte)
  deriving DecidableEq, Repr

/-- The decoder: all 8 bits of the opcode byte select the instruction, operand bytes take no part in it (R49, R50, R53).
An operand byte the format does not use is dropped unread (R48). -/
def decode (l : Latch) : Except DecodeError Instr :=
  match l.op with
  | 0x01#8 => .ok .hlt
  | 0x11#8 => .ok .ret
  | 0x45#8 => .ok (.push l.a)
  | 0x46#8 => .ok (.pop l.a)
  | 0x47#8 => .ok (.prn l.a)
  | 0x48#8 => .ok (.pra l.a)
  | 0x50#8 => .ok (.call l.a)
  | 0x54#8 => .ok (.jmp l.a)
  | 0x55#8 => .ok (.jeq l.a)
  | 0x56#8 => .ok (.jne l.a)
  | 0x65#8 => .ok (.inc l.a)
  | 0x66#8 => .ok (.dec l.a)
  | 0x82#8 => .ok (.ldi l.a l.b)
  | 0x83#8 => .ok (.ld l.a l.b)
  | 0x84#8 => .ok (.st l.a l.b)
  | 0xA0#8 => .ok (.add l.a l.b)
  | 0xA2#8 => .ok (.mul l.a l.b)
  | 0xA7#8 => .ok (.cmp l.a l.b)
  | op => .error (.undefinedOpcode op)

/-- The opcode byte of an instruction (R50). -/
def Instr.opcode : Instr → Byte
  | .hlt => 0x01
  | .ret => 0x11
  | .push _ => 0x45
  | .pop _ => 0x46
  | .prn _ => 0x47
  | .pra _ => 0x48
  | .call _ => 0x50
  | .jmp _ => 0x54
  | .jeq _ => 0x55
  | .jne _ => 0x56
  | .inc _ => 0x65
  | .dec _ => 0x66
  | .ldi _ _ => 0x82
  | .ld _ _ => 0x83
  | .st _ _ => 0x84
  | .add _ _ => 0xA0
  | .mul _ _ => 0xA2
  | .cmp _ _ => 0xA7

/-- The operand bytes an instruction uses, operand A first (R45, R46). -/
def Instr.operandBytes : Instr → List Byte
  | .hlt | .ret => []
  | .push a | .pop a | .prn a | .pra a | .call a | .jmp a | .jeq a | .jne a | .inc a | .dec a => [a]
  | .ldi a imm => [a, imm]
  | .ld a b | .st a b | .add a b | .mul a b | .cmp a b => [a, b]

/-- The bytes of an instruction at ascending addresses: the opcode, then the operands it uses (R45, R31, R55). -/
def encode (i : Instr) : List Byte := i.opcode :: i.operandBytes

/-- The length in bytes, fixed by the opcode alone (R52, the format column of R50). -/
def Instr.length : Instr → Nat
  | .hlt | .ret => 1
  | .push _ | .pop _ | .prn _ | .pra _ | .call _ | .jmp _ | .jeq _ | .jne _ | .inc _ | .dec _ => 2
  | .ldi _ _ | .ld _ _ | .st _ _ | .add _ _ | .mul _ _ | .cmp _ _ => 3

/-- The instruction is one of the ALU's five (R51's `op[5]`, 41_alu.md R67). -/
def Instr.isAlu : Instr → Bool
  | .add _ _ | .mul _ _ | .cmp _ _ | .inc _ | .dec _ => true
  | _ => false

/-- The instruction overwrites `pc` (R51's `op[4]`). -/
def Instr.setsPc : Instr → Bool
  | .call _ | .ret | .jmp _ | .jeq _ | .jne _ => true
  | _ => false

/-- The latch of the first three bytes of a byte sequence; a missing byte reads 0 (R45, R59). -/
def Latch.ofBytes (bs : List Byte) : Latch := ⟨bs.getD 0 0, bs.getD 1 0, bs.getD 2 0⟩

/-- The latch of an instruction's bits numbered as spec/opcode_table.json numbers them:
bit 0 is the least significant bit of the first byte, and every bit from `nbits` on is 0. -/
def latchOfTableWord (nbits w : Nat) : Latch :=
  let v := w % 2 ^ nbits
  ⟨BitVec.ofNat 8 v, BitVec.ofNat 8 (v / 2 ^ 8), BitVec.ofNat 8 (v / 2 ^ 16)⟩

/-- The instruction the decoder reads from the bits `w`, numbered as the opcode table numbers them. -/
def decodeTableWord (nbits w : Nat) : Option Instr :=
  match decode (latchOfTableWord nbits w) with
  | .ok i => some i
  | .error _ => none

end Sys2Proof
end

