-- ==== Sys2Proof/Machine/Fetch.lean ====
section
/-! DEFINITION. The instruction fetch unit and the decode step (40_engine.md R57-R62), and placing an instruction's bytes
where the next fetch reads them. -/

namespace Sys2Proof.Machine

/-- Fetch: three bytes at `pc`, `pc + 1`, `pc + 2`, in this order, whatever the opcode (R59). A `pc` above 0xFD raises
AddressOutOfRange(Memory, 0x100) (R60): the first address out of range in fetch order. -/
def State.fetch (s : State) : Except Exn Latch := do
  let op ← s.memRead s.pc
  let a ← s.memRead (s.pc + 1 : Int)
  let b ← s.memRead (s.pc + 2 : Int)
  return ⟨op, a, b⟩

/-- Decode of the latch; an opcode byte that is none of the 18 raises UndefinedOpcode (R62). -/
def decodeLatch (l : Latch) : Except Exn Instr :=
  match decode l with
  | .ok i => .ok i
  | .error (.undefinedOpcode _) => .error .undefinedOpcode

/-- Fetch, then decode: a fetch fault comes before UndefinedOpcode (R62, 60_exceptions.md R95). -/
def State.fetchDecode (s : State) : Except Exn Instr := do
  let l ← s.fetch
  decodeLatch l

/-- Why the core has no step in this state; none while `running = 1` (R57). -/
def State.noStep (s : State) : Option Fault :=
  if s.running then none
  else
    match s.fault with
    | none => some .halted
    | some r => some (.faulted r)

/-- One step with the handlers `run` (R58): require `running = 1` (R57), fetch, decode, dispatch. An exception of the fetch
or the decode is taken (60_exceptions.md R93); the handler takes its own. -/
def stepBy (run : Instr → State → Answer) (s : State) : Answer :=
  match s.noStep with
  | some f => .fault f
  | none =>
    match s.fetchDecode with
    | .error e => .next (s.takeException e)
    | .ok i => run i s

/-- The state with the three bytes of a latch stored at `pc`, `pc + 1`, `pc + 2`, where the next fetch reads them.
Where no fetch can succeed (`pc > 0xFD`, R60) nothing is stored. -/
def State.placeLatch (s : State) (l : Latch) : State :=
  if s.pc ≤ 0xFD then s.setMem (s.mem.writeBytes s.pc [l.op, l.a, l.b]) else s

end Sys2Proof.Machine
end

