-- ==== Sys2Proof/Machine/Step.lean ====
section
/-! DEFINITION. One step of the core (40_engine.md R58). -/

namespace Sys2Proof.Machine

/-- One step (R58) with the handlers of `exec`, whose stack pointer is the model's SP_REG. `stepWith` of
Machine/Parametric.lean takes SP_REG as an argument. -/
def step (s : State) : Host.Outcome State Fault Refusal := stepBy exec s

/-- `s` with the instruction of the bits `w` (numbered as spec/opcode_table.json numbers them) where `step` fetches its
next instruction. It stands for the host's `load` of a program (70_reset_and_hazards.md R106): log entry 6. -/
def State.withFetchWord (s : State) (nbits w : Nat) : State := s.placeLatch (latchOfTableWord nbits w)

end Sys2Proof.Machine
end

