-- ==== Sys2Proof/Machine/Arbiter.lean ====
section
/-! DEFINITION. The memory read/write arbiter's order (20_memory.md R33, R34): which accesses of a step reach memory, and in
which order. One agent, so the order below is the only one (R35, decision D13). -/

namespace Sys2Proof.Machine

/-- One access that reached memory: one byte, read or written (R36). -/
inductive Access where
  | read (addr : Nat)
  | write (addr : Nat) (v : Byte)
  deriving DecidableEq, Repr

/-- The address of an access. -/
def Access.addr : Access → Nat
  | .read a => a
  | .write a _ => a

/-- The fetch reads that reach memory: `pc`, `pc + 1`, `pc + 2` in order, up to the first address out of range (R33). -/
def State.fetchAccesses (s : State) : List Access :=
  (([s.pc, s.pc + 1, s.pc + 2] : List Nat).takeWhile fun a => decide (a < Config.memSize)).map Access.read

/-- A register operand's value, if it names a register. -/
def State.operandByte? (s : State) (a : Byte) : Option Byte :=
  match ridx a with
  | .ok i => some (s.getReg i)
  | .error _ => none

/-- The write of a push on stack pointer `sp` in `s`: none at SP = 0, where the stack bound raises (R34, 42_stack.md R74). -/
def State.pushAccess (s : State) (sp : Reg) (val : State → Byte) : List Access :=
  match s.decSP sp with
  | .ok s1 => [.write (s1.getReg sp).toNat (val s1)]
  | .error _ => []

/-- The data access of an instruction that reaches memory: at most one (R34's table). An instruction that raises before
its access makes none (R33); a faulting POP or RET has read the byte at SP. A write listed here takes effect. -/
def dataAccess (sp : Reg) (i : Instr) (s : State) : List Access :=
  match i with
  | .ld a b =>
    match regPair a b with
    | .ok (_, j) => [.read (s.getReg j).toNat]
    | .error _ => []
  | .st a b =>
    match regPair a b with
    | .ok (i, j) => [.write (s.getReg i).toNat (s.getReg j)]
    | .error _ => []
  | .push a =>
    match regOperand a with
    | .ok i => s.pushAccess sp fun s1 => s1.getReg i
    | .error _ => []
  | .call a =>
    match regOperand a with
    | .ok _ => s.pushAccess sp fun s1 => BitVec.ofNat 8 (s1.pc + 2)
    | .error _ => []
  | .pop a =>
    match regOperand a with
    | .ok _ => [.read (s.getReg sp).toNat]
    | .error _ => []
  | .ret => [.read (s.getReg sp).toNat]
  | .add _ _ | .mul _ _ | .inc _ | .dec _ | .cmp _ _ | .jmp _ | .jeq _ | .jne _ | .ldi _ _ | .prn _ | .pra _ | .hlt => []

/-- The accesses of one step from `s` with stack pointer `sp`, in the order they reach memory: the fetch reads, then the
data access (R33). A core that is not running has no step and makes no access (40_engine.md R57). -/
def stepAccessesWith (sp : Reg) (s : State) : List Access :=
  if s.running then
    s.fetchAccesses ++
      match s.fetchDecode with
      | .ok i => dataAccess sp i s
      | .error _ => []
  else []

/-- The accesses of `step`. -/
def stepAccesses (s : State) : List Access := stepAccessesWith Config.spReg s

end Sys2Proof.Machine
end

