-- ==== Sys2Proof/Machine/Parametric.lean ====
section
/-! DEFINITION. The whole core with the parameters SP_REG and FLAGS_RESET as named arguments (00_scope.md R5,
93_implementation_defined.md). `exec`, `step` and `core` are the case of `Config.spReg` and `Config.flagsReset`. -/

namespace Sys2Proof.Machine

/-- The handler of each instruction on a core whose stack pointer is register `sp`. PUSH, POP, CALL and RET are the
instructions that use it implicitly (10_state.md R17). -/
def execWith (sp : Reg) (i : Instr) (s : State) : Answer :=
  match i with
  | .hlt => execHlt s
  | .ret => s.complete (s.retHandler sp)
  | .push a => s.complete (s.pushHandler sp a)
  | .pop a => s.complete (s.popHandler sp a)
  | .prn a => execPrn a s
  | .pra a => execPra a s
  | .call a => s.complete (s.callHandler sp a)
  | .jmp a => execJmp a s
  | .jeq a => execJeq a s
  | .jne a => execJne a s
  | .inc a => execInc a s
  | .dec a => execDec a s
  | .ldi a imm => execLdi a imm s
  | .ld a b => execLd a b s
  | .st a b => execSt a b s
  | .add a b => execAdd a b s
  | .mul a b => execMul a b s
  | .cmp a b => execCmp a b s

/-- One step (40_engine.md R58) of a core whose stack pointer is register `sp`. -/
def stepWith (sp : Reg) (s : State) : Answer := stepBy (execWith sp) s

/-- The core at any values of SP_REG and FLAGS_RESET. -/
def coreWith (sp : Reg) (fl : Flags) : Host.Core where
  State := State
  Fault := Fault
  Refusal := Refusal
  step := stepWith sp
  reset := State.resetWith sp fl

end Sys2Proof.Machine
end

