-- ==== Sys2Proof/Machine/HostControl.lean ====
section
/-! DEFINITION. The host's interactions with the core (70_reset_and_hazards.md R105-R109): reset, load, step, run.
The phase of the host's protocol is no state of the core (10_state.md R10): it stands beside the State. -/

namespace Sys2Proof.Machine

/-- Where the host's protocol stands (R106, R108). -/
inductive Phase where
  /-- After `reset()`, before the first step: `load` is defined. -/
  | ready
  /-- A step has been taken. -/
  | started
  /-- The loader failed: the core is not started (R108). -/
  | loadFailed
  deriving DecidableEq, Repr

/-- The core together with the phase of the host's protocol. -/
structure Session where
  core : State
  phase : Phase
  deriving DecidableEq, Repr

/-- Why `load` is refused (R106). -/
inductive LoadRefusal where
  /-- The image holds more than 256 bytes. -/
  | imageTooLong
  /-- It is not between `reset()` and the first step. -/
  | notBeforeFirstStep
  deriving DecidableEq, Repr

/-- What the host gets back from `load` (R107). -/
inductive LoadReply where
  | success
  | refused (why : LoadRefusal)
  deriving DecidableEq, Repr

/-- `load(bytes)` on the core's memory: `mem[i] <- bytes[i]`, nothing else changes (R106). -/
def State.loadImage (s : State) (image : List Byte) : State := s.setMem (s.mem.writeBytes 0 image)

/-- `reset()` rebuilds the core, whatever went before (R105, R107, decision D16), at any SP_REG and FLAGS_RESET. -/
def Session.resetWith (sp : Reg) (fl : Flags) (_ : Session) : Session := ⟨State.resetWith sp fl, .ready⟩

/-- `reset()` at the model's SP_REG and FLAGS_RESET. -/
def Session.reset (h : Session) : Session := h.resetWith Config.spReg Config.flagsReset

/-- `load(bytes)` (R106): defined after `reset()` and before the first step, a loader failure in between or not. A longer
image is refused as a whole, and the host treats it as a loader failure (R108). A load that succeeds after a loader failure
writes the image; the core stays not started until the next reset: log entry 7. -/
def Session.load (h : Session) (image : List Byte) : Session × LoadReply :=
  match h.phase with
  | .ready | .loadFailed =>
    if image.length ≤ Config.memSize then ({ h with core := h.core.loadImage image }, .success)
    else ({ h with phase := .loadFailed }, .refused .imageTooLong)
  | .started => (h, .refused .notBeforeFirstStep)

/-- The loader could not read its program file: "the core is not started" (R108). It can fail only where it could load. -/
def Session.loaderFailure (h : Session) : Session :=
  match h.phase with
  | .ready | .loadFailed => { h with phase := .loadFailed }
  | .started => h

/-- `step()` of the host on a core with the step function `st`, unless a loader failure holds it back (R107, R108). -/
def Session.stepBy (st : State → Answer) (h : Session) : Host.Outcome Session Fault Refusal :=
  match h.phase with
  | .loadFailed => .refused .coreNotStarted
  | .ready | .started =>
    match st h.core with
    | .next s => .next ⟨s, .started⟩
    | .fault f => .fault f
    | .refused r => .refused r

/-- `step()` of the host. -/
def Session.step (h : Session) : Host.Outcome Session Fault Refusal := h.stepBy Sys2Proof.Machine.step

/-- `step()` of the host on a core whose stack pointer is register `sp`. -/
def Session.stepWith (sp : Reg) (h : Session) : Host.Outcome Session Fault Refusal :=
  h.stepBy (Sys2Proof.Machine.stepWith sp)

/-- `run()` with fuel: steps by `st` until `running = 0` (40_engine.md R65). The answer `none` means the fuel ran out, which
is no outcome of the hardware (R109). -/
def runBy (st : State → Answer) : Nat → State → Option State
  | 0, s => if s.running then none else some s
  | n + 1, s =>
    if s.running then
      match st s with
      | .next t => runBy st n t
      | .fault _ => none
      | .refused _ => none
    else some s

/-- `run()` with fuel. -/
def runFor (fuel : Nat) (s : State) : Option State := runBy step fuel s

/-- `run()` with fuel of a core whose stack pointer is register `sp`. -/
def runForWith (sp : Reg) (fuel : Nat) (s : State) : Option State := runBy (stepWith sp) fuel s

/-- `run()` of the host on a core with the step function `st` (R107, R108): a core that is not started runs nothing. -/
def Session.runBy (st : State → Answer) (fuel : Nat) (h : Session) : Option Session :=
  match h.phase with
  | .loadFailed => none
  | .ready | .started => (Sys2Proof.Machine.runBy st fuel h.core).map fun s => ⟨s, .started⟩

/-- `run()` of the host. -/
def Session.run (fuel : Nat) (h : Session) : Option Session := h.runBy Sys2Proof.Machine.step fuel

/-- `run()` of the host on a core whose stack pointer is register `sp`. -/
def Session.runWith (sp : Reg) (fuel : Nat) (h : Session) : Option Session :=
  h.runBy (Sys2Proof.Machine.stepWith sp) fuel

end Sys2Proof.Machine
end

