-- ==== Sys2Proof/Safety.lean ====
section
/-! DEFINITION. What statements say about states: the frame of an instruction, the invariant of the machine, and the ends
of a run. -/

namespace Sys2Proof.Machine

/-- Every register outside `ws` holds in `t` what it held in `s`. -/
def KeepsRegsExcept (ws : List Reg) (s t : State) : Prop := ∀ k : Reg, k ∉ ws → t.getReg k = s.getReg k

/-- Every address outside `as` reads in `t` as it read in `s`. -/
def KeepsMemExcept (as : List Nat) (s t : State) : Prop := ∀ a : Nat, a ∉ as → t.mem.read a = s.mem.read a

/-- The flags, the running flag and the fault record of `t` are those of `s`. -/
def KeepsControl (s t : State) : Prop := t.fl = s.fl ∧ t.running = s.running ∧ t.fault = s.fault

/-- A fault record as 60_exceptions.md R90 and R93 give it: the code is the name's; `space` and `value` are there exactly
for AddressOutOfRange and `tag` exactly for UnsupportedALUOperation; `op` is there exactly where `pc` is in memory. -/
def FaultRecord.wf (r : FaultRecord) : Prop :=
  r.code = r.name.code ∧
  (r.space.isSome ↔ r.name = .addressOutOfRange) ∧
  (r.value.isSome ↔ r.name = .addressOutOfRange) ∧
  (r.tag.isSome ↔ r.name = .unsupportedALUOperation) ∧
  (r.op.isSome ↔ r.pc ≤ 0xFF)

/-- The invariant of the machine: memory in its canonical form within 0..0xFF (10_state.md R23), `pc` in 0..0x100 (R18),
and a fault record only in a stopped core, well-formed and naming the `pc` at which the core stands (R25, R28,
60_exceptions.md R93). -/
def State.Inv (s : State) : Prop :=
  s.mem.wf = true ∧ s.pc ≤ 0x100 ∧
  ∀ r, s.fault = some r → s.running = false ∧ r.wf ∧ r.pc = s.pc

/-- The 18 opcode bytes (30_encoding.md R50), in the map's order. -/
def legalOpcodes : List Byte :=
  [0x01, 0x11, 0x45, 0x46, 0x47, 0x48, 0x50, 0x54, 0x55, 0x56, 0x65, 0x66, 0x82, 0x83, 0x84, 0xA0, 0xA2, 0xA7]

/-- The instruction uses its register operands in this state: a conditional jump only when it is taken (60_exceptions.md
R92 with decision D7, 43_control.md R79). -/
def State.usesOperands (s : State) : Instr → Bool
  | .jeq _ => s.fl.e
  | .jne _ => !s.fl.e
  | .hlt | .ret | .push _ | .pop _ | .prn _ | .pra _ | .call _ | .jmp _ | .inc _ | .dec _ => true
  | .ldi _ _ | .ld _ _ | .st _ _ | .add _ _ | .mul _ _ | .cmp _ _ => true

/-- The first register operand, A before B (R95), that the instruction uses in this state and that names no register. -/
def State.badOperand? (s : State) (i : Instr) : Option Byte :=
  if s.usesOperands i then i.regOperands.find? fun v => !namesReg v else none

/-- The causes of an exception of one instruction on stack pointer `sp`, and what each records (60_exceptions.md R92): a
register operand that the instruction uses and that is out of range, a push or call at SP = 0, a pop or return that would
set SP to 0x100; an operand is checked before the stack bound (R95). -/
inductive Cause (sp : Reg) (s : State) : Instr → Space → Int → Prop where
  | operand {i : Instr} {v : Byte} : s.badOperand? i = some v → Cause sp s i .register v.toNat
  | push {a : Byte} : s.badOperand? (.push a) = none → (s.getReg sp).toNat = 0 → Cause sp s (.push a) .memory (-1)
  | call {a : Byte} : s.badOperand? (.call a) = none → (s.getReg sp).toNat = 0 → Cause sp s (.call a) .memory (-1)
  | pop {a : Byte} : s.badOperand? (.pop a) = none →
      (if a.toNat = sp.val then s.mem.read (s.getReg sp).toNat else s.getReg sp).toNat = 255 →
      Cause sp s (.pop a) .stackPointer 0x100
  | ret : (s.getReg sp).toNat = 255 → Cause sp s .ret .stackPointer 0x100

/-- The run from `s` ends normally in `t`: Halted (70_reset_and_hazards.md R109). -/
def EndsHalted (s t : State) : Prop := ∃ fuel, runFor fuel s = some t ∧ t.status = .halted

/-- The run from `s` ends in an error in `t`: Faulted (R109). -/
def EndsFaulted (s t : State) : Prop := ∃ fuel, runFor fuel s = some t ∧ t.status = .faulted

/-- Two states that differ at most in the flags no instruction reads, LessThan and GreaterThan (10_state.md R20). -/
def SameButLG (s t : State) : Prop := ∃ l g : Bool, t = { s with fl := ⟨s.fl.e, l, g⟩ }

/-- Two states that differ at most in their memories. -/
def SameButMem (s t : State) : Prop := ∃ m : Memory, t = { s with mem := m }

end Sys2Proof.Machine
end

