-- ==== Sys2Proof/Certificates/Slice0/Obligations.lean ====
section
/-! DEFINITION. The statements about the model, made from the numbered rules of spec/. Each docstring names its rules; where a
rule rests on a decision the spec marks as its own (D<n> of 92_eei_decisions.md), or on a choice of the model (a log entry),
the docstring says so. -/

open Sys2Proof Sys2Proof.Machine

/-! ## Encoding -/

/-- R50: the 18 opcode bytes, each with its operands at ascending bytes (R45, R46), numbered as the opcode table numbers bits,
decode to the 18 instructions; 0x00 and 0xFF decode to none. -/
def Obligations.OpcodeMapWordsDecode : Prop :=
  decodeTableWord 8 0x01 = some .hlt ∧
  decodeTableWord 8 0x11 = some .ret ∧
  decodeTableWord 16 0x0245 = some (.push 2) ∧
  decodeTableWord 16 0x0346 = some (.pop 3) ∧
  decodeTableWord 16 0x0447 = some (.prn 4) ∧
  decodeTableWord 16 0x0548 = some (.pra 5) ∧
  decodeTableWord 16 0x0150 = some (.call 1) ∧
  decodeTableWord 16 0x0254 = some (.jmp 2) ∧
  decodeTableWord 16 0x0255 = some (.jeq 2) ∧
  decodeTableWord 16 0x0256 = some (.jne 2) ∧
  decodeTableWord 16 0x0365 = some (.inc 3) ∧
  decodeTableWord 16 0x0766 = some (.dec 7) ∧
  decodeTableWord 24 0x080082 = some (.ldi 0 8) ∧
  decodeTableWord 24 0x020383 = some (.ld 3 2) ∧
  decodeTableWord 24 0x000284 = some (.st 2 0) ∧
  decodeTableWord 24 0x0100A0 = some (.add 0 1) ∧
  decodeTableWord 24 0x0100A2 = some (.mul 0 1) ∧
  decodeTableWord 24 0x0100A7 = some (.cmp 0 1) ∧
  decodeTableWord 8 0x00 = none ∧
  decodeTableWord 8 0xFF = none

/-- Decoding what the encoder wrote gives the instruction back, for every instruction with every operand byte (well-formed or
not) and whatever bytes follow (R45, R46, R48, R50). -/
def Obligations.DecodeOfEncodeIsIdentity : Prop :=
  ∀ (i : Instr) (tail : List Byte), decode (Latch.ofBytes (encode i ++ tail)) = .ok i

/-- The other direction: an instruction the decoder read from a latch encodes to the latch's first bytes, as many as its
length, and its length is one, two or three (R45, R52). -/
def Obligations.EncodeOfDecodeIsPrefix : Prop :=
  ∀ (l : Latch) (i : Instr), decode l = .ok i →
    encode i = [l.op, l.a, l.b].take i.length ∧ 1 ≤ i.length ∧ i.length ≤ 3

/-- R49: an opcode selects an instruction only when the whole byte equals one of R50's values, and operand bytes take no part
in the selection. Any other byte is rejected by name (R53). -/
def Obligations.OpcodeByteAloneSelects : Prop :=
  ∀ l : Latch,
    ((∃ i, decode l = .ok i) ↔ l.op ∈ legalOpcodes) ∧
    (l.op ∉ legalOpcodes → decode l = .error (.undefinedOpcode l.op)) ∧
    (∀ i, decode l = .ok i → i.opcode = l.op ∧
      ∀ a b : Byte, ∃ j, decode ⟨l.op, a, b⟩ = .ok j ∧ j.opcode = i.opcode ∧ j.length = i.length)

/-- Unused operand bytes may hold any value and never change the instruction (R48, decision D22). -/
def Obligations.UnusedOperandBytesAreIgnored : Prop :=
  ∀ (l : Latch) (i : Instr), decode l = .ok i →
    (i.length = 1 → ∀ a b : Byte, decode ⟨l.op, a, b⟩ = .ok i) ∧
    (i.length = 2 → ∀ b : Byte, decode ⟨l.op, l.a, b⟩ = .ok i)

/-- The pattern R51 observes in the opcodes: `op[7:6]` counts the operand bytes the instruction uses (and R52: the length is
one more), `op[5]` marks the ALU, `op[4]` marks the instructions that overwrite `pc`; instructions with equal opcode bytes
differ in their operands only. -/
def Obligations.OpcodeBitsCountOperandsAndMarkGroups : Prop :=
  ∀ i j : Instr,
    (i.opcode >>> 6).toNat = i.operandBytes.length ∧ i.length = (i.opcode >>> 6).toNat + 1 ∧
    i.opcode.getLsbD 5 = i.isAlu ∧ i.opcode.getLsbD 4 = i.setsPc ∧
    (i.opcode = j.opcode → i.operandBytes = j.operandBytes → i = j)

/-! ## The engine: fetch, decode, dispatch -/

/-- R57: the core takes a step only when `running = 1`. Without it there is no step: Halted without a fault record, Faulted
with one. That such a step is answered as the model's fault `halted` or `faulted` is the model's reading (log entry 12). -/
def Obligations.NoStepUnlessRunning : Prop :=
  ∀ s : State,
    (∀ t, step s = .next t → s.running = true) ∧
    (s.running = false → s.fault = none → step s = .fault .halted) ∧
    (∀ r, s.running = false → s.fault = some r → step s = .fault (.faulted r))

/-- R59, R33: a step of a running core first reads the bytes at `pc`, `pc + 1`, `pc + 2`, in this order and whatever the
opcode, and the latch holds them. Where `pc` is above 0xFD no access but reads of bytes that exist is made: the access out of
range reaches no memory. -/
def Obligations.StepReadsThreeBytesFirst : Prop :=
  ∀ s : State, s.running = true →
    (s.pc ≤ 0xFD →
      (stepAccesses s).take 3 = [.read s.pc, .read (s.pc + 1), .read (s.pc + 2)] ∧
      s.fetch = .ok ⟨s.mem.read s.pc, s.mem.read (s.pc + 1), s.mem.read (s.pc + 2)⟩) ∧
    (0xFD < s.pc → ∀ x ∈ stepAccesses s, ∃ a, x = .read a ∧ s.pc ≤ a ∧ a ≤ 0xFF)

/-- R60, R95, R92, R93 (decisions D4, D20; the record's form and the code are D10, that nothing else changes is D6): at a `pc`
above 0xFD every step raises AddressOutOfRange(Memory, 0x100), whatever bytes lie there; the record has the code 2, the `pc`,
the byte there (none at 0x100), and nothing else changes but `running`. The premise `pc ≤ 0x100` is part of the invariant
`State.Inv`, which every step keeps. -/
def Obligations.FetchAboveFdFaults : Prop :=
  ∀ s : State, s.running = true → 0xFD < s.pc → s.pc ≤ 0x100 →
    step s = .next { s with
      running := false
      fault := some {
        code := 2, name := .addressOutOfRange, pc := s.pc
        op := if s.pc = 0x100 then none else some (s.mem.read s.pc)
        space := some .memory, value := some 0x100, tag := none } }

/-- R62, R91, R53: an opcode byte that is none of the 18 raises UndefinedOpcode; the record names the opcode and the pc, and
nothing else changes (R93; the record's form and the code are decision D10). -/
def Obligations.UndefinedOpcodeIsRecorded : Prop :=
  ∀ s : State, s.running = true → s.pc ≤ 0xFD → s.mem.read s.pc ∉ legalOpcodes →
    step s = .next { s with
      running := false
      fault := some {
        code := 1, name := .undefinedOpcode, pc := s.pc, op := some (s.mem.read s.pc)
        space := none, value := none, tag := none } }

/-- R58, R61, R63: when the bytes at `pc` decode to an instruction (well-formed or not), the step of a running core is exactly
that instruction's handler on that state: the engine adds nothing around it (R64: it never advances `pc` itself). -/
def Obligations.StepRunsDecodedInstruction : Prop :=
  ∀ (s : State) (i : Instr), s.running = true → s.pc ≤ 0xFD →
    decode ⟨s.mem.read s.pc, s.mem.read (s.pc + 1), s.mem.read (s.pc + 2)⟩ = .ok i → step s = exec i s

/-- R66: every running state has an outcome, and it is the next state, or one fault with one record: no step is refused and
none ends without a next state. -/
def Obligations.RunningStateAlwaysSteps : Prop :=
  ∀ s : State, s.running = true →
    ∃ t, step s = .next t ∧ (t.fault = s.fault ∨ ∃ e, t = s.takeException e)

/-- R93 (decisions D6, D10): what taking an exception does. The record has the code, the name, the pc of the instruction, the
byte there (none at 0x100), and space and value for AddressOutOfRange only; `running` is cleared; registers, flags, memory,
`pc` and the output stream are those before the instruction, so control goes to no handler. -/
def Obligations.TakingAnExceptionWritesOnlyTheRecord : Prop :=
  ∀ (s : State) (sp : Space) (v : Int),
    s.takeException .undefinedOpcode = { s with
      running := false
      fault := some {
        code := 1, name := .undefinedOpcode, pc := s.pc
        op := if s.pc ≤ 0xFF then some (s.mem.read s.pc) else none
        space := none, value := none, tag := none } } ∧
    s.takeException (.addressOutOfRange sp v) = { s with
      running := false
      fault := some {
        code := 2, name := .addressOutOfRange, pc := s.pc
        op := if s.pc ≤ 0xFF then some (s.mem.read s.pc) else none
        space := some sp, value := some v, tag := none } }

/-- R93, R8, R96 (decisions D6, D10): exceptions are precise. Whenever a step changes the fault record, it changes nothing
else but `running`, which it clears; the record names the pc of the instruction and the byte there, none at 0x100. -/
def Obligations.ExceptionsArePrecise : Prop :=
  ∀ s t : State, step s = .next t → t.fault ≠ s.fault →
    ∃ r : FaultRecord, t = { s with fault := some r, running := false } ∧ r.wf ∧ r.pc = s.pc ∧
      r.op = if s.pc ≤ 0xFF then some (s.mem.read s.pc) else none

/-- R92, R90, R91, R95 (decisions D4, D7, D8, D10, D20): exceptions have exactly the spec's causes. A step of a core without a
fault record writes one only as UndefinedOpcode for a byte that is no opcode, as the fetch fault, or for one of the causes of
the decoded instruction that `Cause` lists with what each records; an operand is a cause only where the instruction uses it.
And each cause that `Cause` lists does raise its exception. The premise `pc ≤ 0x100` is part of `State.Inv`. -/
def Obligations.FaultsHaveOnlyListedCauses : Prop :=
  (∀ (s t : State) (r : FaultRecord), s.pc ≤ 0x100 → s.fault = none → step s = .next t → t.fault = some r →
    (r.name = .undefinedOpcode ∧ s.pc ≤ 0xFD ∧ s.mem.read s.pc ∉ legalOpcodes) ∨
    (r.name = .addressOutOfRange ∧ 0xFD < s.pc ∧ r.space = some .memory ∧ r.value = some 0x100) ∨
    (∃ i m v, decode ⟨s.mem.read s.pc, s.mem.read (s.pc + 1), s.mem.read (s.pc + 2)⟩ = .ok i ∧ s.pc ≤ 0xFD ∧
      Cause Config.spReg s i m v ∧ r.name = .addressOutOfRange ∧ r.space = some m ∧ r.value = some v)) ∧
  ∀ (s : State) (i : Instr) (m : Space) (v : Int), s.running = true → s.pc ≤ 0xFD →
    decode ⟨s.mem.read s.pc, s.mem.read (s.pc + 1), s.mem.read (s.pc + 2)⟩ = .ok i → Cause Config.spReg s i m v →
    step s = .next (s.takeException (.addressOutOfRange m v))

/-- R73: the ALU gives an unknown tag no result, and no step raises UnsupportedALUOperation. That the model keeps the fault,
takes any natural number as a tag and has the ALU raise it with that tag is the model's choice (log entry 10). -/
def Obligations.UnsupportedAluOperationIsNeverRaised : Prop :=
  (∀ (tag : Nat) (u v : Byte), alu (.other tag) u v = .error (.unsupportedALUOperation tag)) ∧
  ∀ (s t : State) (r : FaultRecord), step s = .next t → t.fault = some r → r.name = .unsupportedALUOperation →
    s.fault = some r

/-- R47 with R55: an instruction the assembly syntax can write (all its register operands are R0 to R7) never raises
AddressOutOfRange(Register, v). -/
def Obligations.WellFormedNeverRaisesRegisterRange : Prop :=
  ∀ (i : Instr) (s t : State) (r : FaultRecord), i.wellFormed = true → exec i s = .next t → t.fault = some r →
    r.space = some .register → s.fault = some r

/-- R19's table, R64: what each handler does to `pc`. HLT leaves it; RET sets it to the popped byte; CALL and JMP set it to
`x[a]` (CALL reads `x[a]` after SP moved, decision D9: the `x[a]` of the state after); JEQ does so if `FL.E = 1` and JNE if
`FL.E = 0`, else they advance by 2; every other instruction advances by its length. `pc` never wraps (R18, decision D4). A
handler that raises leaves it (R93, decision D6). The ALU's advances are decision D5. -/
def Obligations.HandlerMovesPcAsTabled : Prop :=
  ∀ (i : Instr) (s t : State), exec i s = .next t →
    (∃ e, t = s.takeException e) ∨
    match i with
    | .hlt => t.pc = s.pc
    | .ret => t.pc = (s.mem.read (s.getReg Config.spReg).toNat).toNat
    | .call a => ∃ k : Reg, a.toNat = k.val ∧ t.pc = (t.getReg k).toNat
    | .jmp a => ∃ k : Reg, a.toNat = k.val ∧ t.pc = (s.getReg k).toNat
    | .jeq a => if s.fl.e = true then ∃ k : Reg, a.toNat = k.val ∧ t.pc = (s.getReg k).toNat else t.pc = s.pc + 2
    | .jne a => if s.fl.e = false then ∃ k : Reg, a.toNat = k.val ∧ t.pc = (s.getReg k).toNat else t.pc = s.pc + 2
    | .push _ | .pop _ | .prn _ | .pra _ | .inc _ | .dec _ => t.pc = s.pc + 2
    | .ldi _ _ | .ld _ _ | .st _ _ | .add _ _ | .mul _ _ | .cmp _ _ => t.pc = s.pc + 3

/-- R18, R112 (decision D4): `pc` leaves the memory in one way only: a 3-byte instruction at 0xFD advances it to 0x100. -/
def Obligations.PcLeavesMemoryOnlyPastFd : Prop :=
  ∀ s t : State, s.pc ≤ 0xFF → step s = .next t → 0xFF < t.pc →
    s.pc = 0xFD ∧ t.pc = 0x100 ∧
      ∃ i, decode ⟨s.mem.read s.pc, s.mem.read (s.pc + 1), s.mem.read (s.pc + 2)⟩ = .ok i ∧ i.length = 3

/-! ## Whole-machine rules -/

/-- R20: no instruction but CMP has a flag side effect. -/
def Obligations.OnlyCmpWritesFlags : Prop :=
  ∀ (i : Instr) (s t : State), exec i s = .next t → (∀ a b, i ≠ .cmp a b) → t.fl = s.fl

/-- R22: after a CMP exactly one flag is set, whatever the flags were, and from then on every step keeps that. -/
def Obligations.OneHotFlagsFromFirstCmpOn : Prop :=
  (∀ (a b : Byte) (s : State), a.toNat < 8 → b.toNat < 8 → ∃ t, exec (.cmp a b) s = .next t ∧ t.fl.oneHot = true) ∧
  ∀ s t : State, s.fl.oneHot = true → step s = .next t → t.fl.oneHot = true

/-- R27: only PRN and PRA append to the output stream, one event each, with the value of the register they name; nothing is
ever taken from it. -/
def Obligations.OutputGrowsOnlyByPrnAndPra : Prop :=
  ∀ (i : Instr) (s t : State), exec i s = .next t →
    t.out = s.out ∨
    (∃ (a : Byte) (k : Reg), i = .prn a ∧ a.toNat = k.val ∧ t.out = s.out ++ [.dec (s.getReg k)]) ∨
    (∃ (a : Byte) (k : Reg), i = .pra a ∧ a.toNat = k.val ∧ t.out = s.out ++ [.chr (s.getReg k)])

/-- R24: no instruction sets the running flag, and only HLT and a fault clear it. -/
def Obligations.OnlyHltAndFaultsClearRunning : Prop :=
  ∀ (i : Instr) (s t : State), exec i s = .next t →
    (s.running = false → t.running = false) ∧
    (s.running = true → t.running = false → i = .hlt ∨ ∃ e, t = s.takeException e)

/-- R34, R33: an instruction makes at most one data access, and memory changes at the address of its write access only, where
it then holds the byte written. -/
def Obligations.MemoryChangesOnlyByTheListedWrite : Prop :=
  ∀ (i : Instr) (s t : State), exec i s = .next t →
    (dataAccess Config.spReg i s).length ≤ 1 ∧
    (∀ (a : Nat) (v : Byte), .write a v ∈ dataAccess Config.spReg i s → t.mem.read a = v) ∧
    (∀ a : Nat, (∀ v, .write a v ∉ dataAccess Config.spReg i s) → t.mem.read a = s.mem.read a)

/-- R33, R34, R36: a step depends on no byte of memory but those its listed accesses read. Two states that differ only in
memory, and there only at addresses the step does not read, go to states that differ only in memory, and agree at the
address written. -/
def Obligations.StepReadsOnlyTheListedAddresses : Prop :=
  ∀ s s' t : State, SameButMem s s' → (∀ a, .read a ∈ stepAccesses s → s'.mem.read a = s.mem.read a) →
    step s = .next t →
    ∃ t', step s' = .next t' ∧ SameButMem t t' ∧ ∀ a v, .write a v ∈ stepAccesses s → t'.mem.read a = v

/-- R43, R61: a store is seen by the very next fetch, and the storing instruction itself ran with the operands it had: where
the byte written lies in the three bytes at the new `pc`, the next fetch reads it there. -/
def Obligations.NextFetchSeesTheStore : Prop :=
  ∀ (i : Instr) (s t : State) (a : Nat) (v : Byte), exec i s = .next t → .write a v ∈ dataAccess Config.spReg i s →
    t.pc ≤ 0xFD →
    ∃ l, t.fetch = .ok l ∧ (a = t.pc → l.op = v) ∧ (a = t.pc + 1 → l.a = v) ∧ (a = t.pc + 2 → l.b = v)

/-- R20: no program can observe LessThan and GreaterThan. Two states that differ only in them step to states that differ only
in them, or stop alike. -/
def Obligations.LessAndGreaterAreUnobservable : Prop :=
  ∀ s s' : State, SameButLG s s' →
    (∀ t, step s = .next t → ∃ t', step s' = .next t' ∧ SameButLG t t') ∧
    (∀ f, step s = .fault f → step s' = .fault f)

/-- R18, R23, R25, R28: the machine's invariant. Every step from a state with memory in canonical form inside 0..0xFF, `pc` in
0..0x100 and at most a well-formed fault record in a stopped core leads to such a state. -/
def Obligations.StepKeepsInvariant : Prop :=
  ∀ s t : State, s.Inv → step s = .next t → t.Inv

/-- R105: the state after reset meets the invariant, for every SP_REG and FLAGS_RESET. -/
def Obligations.ResetMeetsInvariant : Prop :=
  ∀ (sp : Reg) (fl : Flags), (State.resetWith sp fl).Inv

/-! ## Reset, load, run -/

/-- R16: after reset every register is 0 but the stack pointer, which is 0xF4, for every SP_REG and FLAGS_RESET. -/
def Obligations.ResetRegisterFile : Prop :=
  ∀ (sp : Reg) (fl : Flags),
    (State.resetWith sp fl).getReg sp = 0xF4 ∧ ∀ i : Reg, i ≠ sp → (State.resetWith sp fl).getReg i = 0

/-- R105: after reset `pc` is 0, the flags are FLAGS_RESET (open, decision D2: any value here), every byte of memory is 0,
`running` is 1 (the spec's decision D3), there is no fault record and the output stream is empty. `State.reset` is the case of
the model's values of SP_REG and FLAGS_RESET (log entries 1 and 2). -/
def Obligations.ResetRestOfState : Prop :=
  (∀ (sp : Reg) (fl : Flags),
    (State.resetWith sp fl).pc = 0 ∧ (State.resetWith sp fl).fl = fl ∧
    (∀ a, (State.resetWith sp fl).mem.read a = 0) ∧ (State.resetWith sp fl).running = true ∧
    (State.resetWith sp fl).fault = none ∧ (State.resetWith sp fl).out = []) ∧
  State.reset = State.resetWith Config.spReg Config.flagsReset

/-- R30: reset leaves every byte 0, `load` writes byte `k` of the image to `mem[k]`, and the bytes above the image stay 0. -/
def Obligations.LoadedImageReadsBack : Prop :=
  ∀ (sp : Reg) (fl : Flags) (image : List Byte), image.length ≤ 256 →
    (∀ a, (State.resetWith sp fl).mem.read a = 0) ∧
    (∀ (k : Nat) (h : k < image.length), ((State.resetWith sp fl).loadImage image).mem.read k = image[k]) ∧
    (∀ a, image.length ≤ a → ((State.resetWith sp fl).loadImage image).mem.read a = 0)

/-- R106, R107, R108 (decisions D12, D16): `load` after reset and before the first step, a loader failure in between or not,
writes the image and changes nothing else; a longer image is refused as a whole, and then the core is not started; after a
step, load is refused. That a load which succeeds after a loader failure leaves the core not started is the model's reading
(log entry 7), and so are the values of SP_REG and FLAGS_RESET in `State.reset` (log entries 1 and 2). -/
def Obligations.LoadIsDefinedOnlyBeforeFirstStep : Prop :=
  ∀ (h : Session) (image : List Byte),
    (h.phase ≠ .started → image.length ≤ 256 →
      h.load image = (⟨{ h.core with mem := h.core.mem.writeBytes 0 image }, h.phase⟩, .success)) ∧
    (h.phase ≠ .started → 256 < image.length →
      (h.load image).2 = .refused .imageTooLong ∧ (h.load image).1.core = h.core ∧
      (h.load image).1.step = .refused .coreNotStarted) ∧
    (h.phase = .started → h.load image = (h, .refused .notBeforeFirstStep)) ∧
    (∀ h', h.step = .next h' → h'.load image = (h', .refused .notBeforeFirstStep)) ∧
    (h.phase = .loadFailed → (h.load image).1.step = .refused .coreNotStarted) ∧
    h.reset = ⟨State.reset, .ready⟩

/-- R105, R106: loading an image keeps the invariant, so a run starts from a state that meets it. -/
def Obligations.LoadKeepsInvariant : Prop :=
  ∀ (s : State) (image : List Byte), s.Inv → image.length ≤ 256 → (s.loadImage image).Inv

/-- R65, R109: a run ends only in a state with `running = 0`, more fuel never changes its end, and from a state that meets the
invariant it ends in one. -/
def Obligations.RunEndsOnlyStopped : Prop :=
  ∀ (fuel : Nat) (s t : State), runFor fuel s = some t →
    t.running = false ∧ (∀ more, runFor (fuel + more) s = some t) ∧ (s.Inv → t.Inv)

/-- R65, R80: a JMP to its own address steps to the same state, so with any fuel the run does not end: the core has no
timeout. -/
def Obligations.JumpToItselfRunsForever : Prop :=
  ∀ (s : State) (i : Reg), s.running = true → s.pc ≤ 0xFD → s.mem.read s.pc = 0x54 →
    (s.mem.read (s.pc + 1)).toNat = i.val → (s.getReg i).toNat = s.pc →
    step s = .next s ∧ ∀ fuel, runFor fuel s = none

/-! ## The ALU -/

/-- R68: ADD writes `(x[a] + x[b]) mod 256` to `x[a]`, for every pair of registers, the same one twice and the stack pointer
too; the advance by 3 is decision D5. Its exceptions: A is checked before B. -/
def Obligations.AddWritesSumModulo256 : Prop :=
  ∀ (a b : Byte) (s : State),
    decode ⟨0xA0, a, b⟩ = .ok (.add a b) ∧
    (∀ i j : Reg, a.toNat = i.val → b.toNat = j.val →
      ∃ t, exec (.add a b) s = .next t ∧
        (t.getReg i).toNat = ((s.getReg i).toNat + (s.getReg j).toNat) % 256 ∧ t.pc = s.pc + 3 ∧
        KeepsRegsExcept [i] s t ∧ KeepsMemExcept [] s t ∧ KeepsControl s t ∧ t.out = s.out) ∧
    (8 ≤ a.toNat → exec (.add a b) s = .next (s.takeException (.addressOutOfRange .register a.toNat))) ∧
    (a.toNat < 8 → 8 ≤ b.toNat →
      exec (.add a b) s = .next (s.takeException (.addressOutOfRange .register b.toNat)))

/-- R69: MUL writes the low 8 bits of the unsigned product to `x[a]`; the advance by 3 is decision D5. -/
def Obligations.MulWritesProductModulo256 : Prop :=
  ∀ (a b : Byte) (s : State),
    decode ⟨0xA2, a, b⟩ = .ok (.mul a b) ∧
    (∀ i j : Reg, a.toNat = i.val → b.toNat = j.val →
      ∃ t, exec (.mul a b) s = .next t ∧
        (t.getReg i).toNat = ((s.getReg i).toNat * (s.getReg j).toNat) % 256 ∧ t.pc = s.pc + 3 ∧
        KeepsRegsExcept [i] s t ∧ KeepsMemExcept [] s t ∧ KeepsControl s t ∧ t.out = s.out) ∧
    (8 ≤ a.toNat → exec (.mul a b) s = .next (s.takeException (.addressOutOfRange .register a.toNat))) ∧
    (a.toNat < 8 → 8 ≤ b.toNat →
      exec (.mul a b) s = .next (s.takeException (.addressOutOfRange .register b.toNat)))

/-- R70: INC writes `(x[a] + 1) mod 256`, the stack pointer too wraps here; the advance by 2 is decision D5. -/
def Obligations.IncAddsOneModulo256 : Prop :=
  ∀ (a : Byte) (s : State),
    (∀ x, decode ⟨0x65, a, x⟩ = .ok (.inc a)) ∧
    (∀ i : Reg, a.toNat = i.val →
      ∃ t, exec (.inc a) s = .next t ∧ (t.getReg i).toNat = ((s.getReg i).toNat + 1) % 256 ∧ t.pc = s.pc + 2 ∧
        KeepsRegsExcept [i] s t ∧ KeepsMemExcept [] s t ∧ KeepsControl s t ∧ t.out = s.out) ∧
    (8 ≤ a.toNat → exec (.inc a) s = .next (s.takeException (.addressOutOfRange .register a.toNat)))

/-- R71: DEC writes `(x[a] - 1) mod 256`, with `mod` the non-negative remainder (R6); the advance by 2 is decision D5. -/
def Obligations.DecSubtractsOneModulo256 : Prop :=
  ∀ (a : Byte) (s : State),
    (∀ x, decode ⟨0x66, a, x⟩ = .ok (.dec a)) ∧
    (∀ i : Reg, a.toNat = i.val →
      ∃ t, exec (.dec a) s = .next t ∧ ((t.getReg i).toNat : Int) = (((s.getReg i).toNat : Int) - 1) % 256 ∧
        t.pc = s.pc + 2 ∧ KeepsRegsExcept [i] s t ∧ KeepsMemExcept [] s t ∧ KeepsControl s t ∧ t.out = s.out) ∧
    (8 ≤ a.toNat → exec (.dec a) s = .next (s.takeException (.addressOutOfRange .register a.toNat)))

/-- R72: CMP sets Equal, LessThan and GreaterThan by the unsigned comparison of `x[a]` with `x[b]` and writes no register.
Which of the two is "Less" is decision D18, the advance by 3 decision D5. The flags do not change when CMP raises. -/
def Obligations.CmpSetsUnsignedComparisonFlags : Prop :=
  ∀ (a b : Byte) (s : State),
    decode ⟨0xA7, a, b⟩ = .ok (.cmp a b) ∧
    (∀ i j : Reg, a.toNat = i.val → b.toNat = j.val →
      ∃ t, exec (.cmp a b) s = .next t ∧
        (t.fl.e = true ↔ s.getReg i = s.getReg j) ∧
        (t.fl.l = true ↔ (s.getReg i).toNat < (s.getReg j).toNat) ∧
        (t.fl.g = true ↔ (s.getReg j).toNat < (s.getReg i).toNat) ∧ t.pc = s.pc + 3 ∧
        KeepsRegsExcept [] s t ∧ KeepsMemExcept [] s t ∧ t.running = s.running ∧ t.fault = s.fault ∧
        t.out = s.out) ∧
    (8 ≤ a.toNat → exec (.cmp a b) s = .next (s.takeException (.addressOutOfRange .register a.toNat))) ∧
    (a.toNat < 8 → 8 ≤ b.toNat →
      exec (.cmp a b) s = .next (s.takeException (.addressOutOfRange .register b.toNat)))

/-! ## The stack -/

/-- R75: PUSH decrements SP and writes `x[a]` at the new SP. `x[a]` is read after SP moved, so PUSH of the stack pointer
stores the decremented SP (decision D9): the byte stored is `x[a]` of the state after. At SP = 0 it raises
AddressOutOfRange(Memory, -1), after the check of the operand. -/
def Obligations.PushStoresBelowStackPointer : Prop :=
  ∀ (a : Byte) (s : State),
    (∀ x, decode ⟨0x45, a, x⟩ = .ok (.push a)) ∧
    (∀ i : Reg, a.toNat = i.val → 1 ≤ (s.getReg Config.spReg).toNat →
      ∃ t, exec (.push a) s = .next t ∧
        (t.getReg Config.spReg).toNat = (s.getReg Config.spReg).toNat - 1 ∧
        t.mem.read ((s.getReg Config.spReg).toNat - 1) = t.getReg i ∧ t.pc = s.pc + 2 ∧
        KeepsRegsExcept [Config.spReg] s t ∧ KeepsMemExcept [(s.getReg Config.spReg).toNat - 1] s t ∧
        KeepsControl s t ∧ t.out = s.out) ∧
    (a.toNat < 8 → (s.getReg Config.spReg).toNat = 0 →
      exec (.push a) s = .next (s.takeException (.addressOutOfRange .memory (-1)))) ∧
    (8 ≤ a.toNat → exec (.push a) s = .next (s.takeException (.addressOutOfRange .register a.toNat)))

/-- R76: POP reads the byte at SP into `x[a]` and increments SP, read after the write of `x[a]`, so POP of the stack pointer
leaves `mem[SP] + 1` there (decision D9). Where that SP is 0xFF it raises AddressOutOfRange(StackPointer, 0x100)
(decision D8). The popped byte stays in memory. -/
def Obligations.PopLoadsFromStackPointer : Prop :=
  ∀ (a : Byte) (s : State),
    (∀ x, decode ⟨0x46, a, x⟩ = .ok (.pop a)) ∧
    (∀ (i : Reg) (v sp1 : Byte), a.toNat = i.val → v = s.mem.read (s.getReg Config.spReg).toNat →
      sp1 = (if i = Config.spReg then v else s.getReg Config.spReg) →
      (sp1.toNat < 0xFF →
        ∃ t, exec (.pop a) s = .next t ∧ (i ≠ Config.spReg → t.getReg i = v) ∧
          (t.getReg Config.spReg).toNat = sp1.toNat + 1 ∧ t.pc = s.pc + 2 ∧
          KeepsRegsExcept [i, Config.spReg] s t ∧ KeepsMemExcept [] s t ∧ KeepsControl s t ∧ t.out = s.out) ∧
      (sp1.toNat = 0xFF → exec (.pop a) s = .next (s.takeException (.addressOutOfRange .stackPointer 0x100)))) ∧
    (8 ≤ a.toNat → exec (.pop a) s = .next (s.takeException (.addressOutOfRange .register a.toNat)))

/-- R77: CALL decrements SP, writes the return address `pc + 2` at the new SP and jumps to `x[a]`, read after SP moved, so
CALL of the stack pointer jumps to the decremented SP (decision D9). `pc + 2` fits in the byte wherever a fetch succeeds. -/
def Obligations.CallPushesReturnAddressAndJumps : Prop :=
  ∀ (a : Byte) (s : State),
    (∀ x, decode ⟨0x50, a, x⟩ = .ok (.call a)) ∧
    (∀ i : Reg, a.toNat = i.val → 1 ≤ (s.getReg Config.spReg).toNat →
      ∃ t, exec (.call a) s = .next t ∧
        (t.getReg Config.spReg).toNat = (s.getReg Config.spReg).toNat - 1 ∧
        (s.pc ≤ 0xFD → (t.mem.read ((s.getReg Config.spReg).toNat - 1)).toNat = s.pc + 2) ∧
        t.pc = (t.getReg i).toNat ∧ KeepsRegsExcept [Config.spReg] s t ∧
        KeepsMemExcept [(s.getReg Config.spReg).toNat - 1] s t ∧ KeepsControl s t ∧ t.out = s.out) ∧
    (a.toNat < 8 → (s.getReg Config.spReg).toNat = 0 →
      exec (.call a) s = .next (s.takeException (.addressOutOfRange .memory (-1)))) ∧
    (8 ≤ a.toNat → exec (.call a) s = .next (s.takeException (.addressOutOfRange .register a.toNat)))

/-- R78: RET jumps to the byte at SP and increments SP; at SP = 0xFF it raises AddressOutOfRange(StackPointer, 0x100)
(decision D8). -/
def Obligations.RetJumpsToPoppedByte : Prop :=
  ∀ s : State,
    (∀ x y, decode ⟨0x11, x, y⟩ = .ok .ret) ∧
    ((s.getReg Config.spReg).toNat < 0xFF →
      ∃ t, exec .ret s = .next t ∧ t.pc = (s.mem.read (s.getReg Config.spReg).toNat).toNat ∧
        (t.getReg Config.spReg).toNat = (s.getReg Config.spReg).toNat + 1 ∧ KeepsRegsExcept [Config.spReg] s t ∧
        KeepsMemExcept [] s t ∧ KeepsControl s t ∧ t.out = s.out) ∧
    ((s.getReg Config.spReg).toNat = 0xFF →
      exec .ret s = .next (s.takeException (.addressOutOfRange .stackPointer 0x100)))

/-- R75, R76, vector S7: for every SP_REG, PUSH of one register and then POP into another, neither the stack pointer,
reproduces the value; SP is back and the pushed byte is still in memory. -/
def Obligations.PushThenPopReproducesValue : Prop :=
  ∀ (s : State) (sp i j : Reg) (a b : Byte), a.toNat = i.val → b.toNat = j.val → i ≠ sp → j ≠ sp →
    1 ≤ (s.getReg sp).toNat →
    ∃ t u, execWith sp (.push a) s = .next t ∧ execWith sp (.pop b) t = .next u ∧ u.getReg j = s.getReg i ∧
      u.getReg sp = s.getReg sp ∧ u.mem.read ((s.getReg sp).toNat - 1) = s.getReg i ∧ u.pc = s.pc + 4 ∧
      KeepsRegsExcept [j] s u

/-- R77, R78, vector S8: for every SP_REG, CALL and then RET resume at the instruction after the CALL, with every register
(SP too) as before. -/
def Obligations.CallThenRetResumesAfterCall : Prop :=
  ∀ (s : State) (sp i : Reg) (a : Byte), a.toNat = i.val → 1 ≤ (s.getReg sp).toNat → s.pc ≤ 0xFD →
    ∃ t u, execWith sp (.call a) s = .next t ∧ execWith sp .ret t = .next u ∧ u.pc = s.pc + 2 ∧ KeepsRegsExcept [] s u

/-! ## Control transfer -/

/-- R80: JMP sets `pc` to `x[a]` and changes nothing else, so a JMP to its own address leaves the state as it is
(`JumpToItselfRunsForever` says the same of the step and the run). -/
def Obligations.JmpGoesToRegister : Prop :=
  ∀ (a : Byte) (s : State),
    (∀ x, decode ⟨0x54, a, x⟩ = .ok (.jmp a)) ∧
    (∀ i : Reg, a.toNat = i.val →
      ∃ t, exec (.jmp a) s = .next t ∧ t.pc = (s.getReg i).toNat ∧ KeepsRegsExcept [] s t ∧
        KeepsMemExcept [] s t ∧ KeepsControl s t ∧ t.out = s.out) ∧
    (∀ i : Reg, a.toNat = i.val → (s.getReg i).toNat = s.pc → exec (.jmp a) s = .next s) ∧
    (8 ≤ a.toNat → exec (.jmp a) s = .next (s.takeException (.addressOutOfRange .register a.toNat)))

/-- R81: JEQ goes to `x[a]` if Equal is set, else to `pc + 2`; its operand is checked only when it jumps (decision D7). -/
def Obligations.JeqJumpsIffEqual : Prop :=
  ∀ (a : Byte) (s : State),
    (∀ x, decode ⟨0x55, a, x⟩ = .ok (.jeq a)) ∧
    (∀ i : Reg, s.fl.e = true → a.toNat = i.val →
      ∃ t, exec (.jeq a) s = .next t ∧ t.pc = (s.getReg i).toNat ∧ KeepsRegsExcept [] s t ∧
        KeepsMemExcept [] s t ∧ KeepsControl s t ∧ t.out = s.out) ∧
    (s.fl.e = false →
      ∃ t, exec (.jeq a) s = .next t ∧ t.pc = s.pc + 2 ∧ KeepsRegsExcept [] s t ∧
        KeepsMemExcept [] s t ∧ KeepsControl s t ∧ t.out = s.out) ∧
    (s.fl.e = true → 8 ≤ a.toNat →
      exec (.jeq a) s = .next (s.takeException (.addressOutOfRange .register a.toNat)))

/-- R82: JNE goes to `x[a]` if Equal is clear, else to `pc + 2`; its operand is checked only when it jumps (decision D7). -/
def Obligations.JneJumpsIffNotEqual : Prop :=
  ∀ (a : Byte) (s : State),
    (∀ x, decode ⟨0x56, a, x⟩ = .ok (.jne a)) ∧
    (∀ i : Reg, s.fl.e = false → a.toNat = i.val →
      ∃ t, exec (.jne a) s = .next t ∧ t.pc = (s.getReg i).toNat ∧ KeepsRegsExcept [] s t ∧
        KeepsMemExcept [] s t ∧ KeepsControl s t ∧ t.out = s.out) ∧
    (s.fl.e = true →
      ∃ t, exec (.jne a) s = .next t ∧ t.pc = s.pc + 2 ∧ KeepsRegsExcept [] s t ∧
        KeepsMemExcept [] s t ∧ KeepsControl s t ∧ t.out = s.out) ∧
    (s.fl.e = false → 8 ≤ a.toNat →
      exec (.jne a) s = .next (s.takeException (.addressOutOfRange .register a.toNat)))

/-! ## Data movement and I/O -/

/-- R84: LDI loads the immediate byte, any value, into `x[a]`, the stack pointer too. -/
def Obligations.LdiLoadsImmediateByte : Prop :=
  ∀ (a imm : Byte) (s : State),
    decode ⟨0x82, a, imm⟩ = .ok (.ldi a imm) ∧
    (∀ i : Reg, a.toNat = i.val →
      ∃ t, exec (.ldi a imm) s = .next t ∧ t.getReg i = imm ∧ t.pc = s.pc + 3 ∧ KeepsRegsExcept [i] s t ∧
        KeepsMemExcept [] s t ∧ KeepsControl s t ∧ t.out = s.out) ∧
    (8 ≤ a.toNat → exec (.ldi a imm) s = .next (s.takeException (.addressOutOfRange .register a.toNat)))

/-- R85: LD loads the byte at the address in `x[b]` into `x[a]`, the same register too. -/
def Obligations.LdLoadsByteAtRegister : Prop :=
  ∀ (a b : Byte) (s : State),
    decode ⟨0x83, a, b⟩ = .ok (.ld a b) ∧
    (∀ i j : Reg, a.toNat = i.val → b.toNat = j.val →
      ∃ t, exec (.ld a b) s = .next t ∧ t.getReg i = s.mem.read (s.getReg j).toNat ∧ t.pc = s.pc + 3 ∧
        KeepsRegsExcept [i] s t ∧ KeepsMemExcept [] s t ∧ KeepsControl s t ∧ t.out = s.out) ∧
    (8 ≤ a.toNat → exec (.ld a b) s = .next (s.takeException (.addressOutOfRange .register a.toNat))) ∧
    (a.toNat < 8 → 8 ≤ b.toNat →
      exec (.ld a b) s = .next (s.takeException (.addressOutOfRange .register b.toNat)))

/-- R86: ST stores `x[b]` at the address in `x[a]` and writes no register. -/
def Obligations.StStoresByteAtRegister : Prop :=
  ∀ (a b : Byte) (s : State),
    decode ⟨0x84, a, b⟩ = .ok (.st a b) ∧
    (∀ i j : Reg, a.toNat = i.val → b.toNat = j.val →
      ∃ t, exec (.st a b) s = .next t ∧ t.mem.read (s.getReg i).toNat = s.getReg j ∧ t.pc = s.pc + 3 ∧
        KeepsRegsExcept [] s t ∧ KeepsMemExcept [(s.getReg i).toNat] s t ∧ KeepsControl s t ∧ t.out = s.out) ∧
    (8 ≤ a.toNat → exec (.st a b) s = .next (s.takeException (.addressOutOfRange .register a.toNat))) ∧
    (a.toNat < 8 → 8 ≤ b.toNat →
      exec (.st a b) s = .next (s.takeException (.addressOutOfRange .register b.toNat)))

/-- R87 (the event's form is decision D11): PRN appends `(DEC, x[a])` to the output stream; nothing is emitted when it
raises. -/
def Obligations.PrnEmitsDecimalEvent : Prop :=
  ∀ (a : Byte) (s : State),
    (∀ x, decode ⟨0x47, a, x⟩ = .ok (.prn a)) ∧
    (∀ i : Reg, a.toNat = i.val →
      ∃ t, exec (.prn a) s = .next t ∧ t.out = s.out ++ [.dec (s.getReg i)] ∧ t.pc = s.pc + 2 ∧
        KeepsRegsExcept [] s t ∧ KeepsMemExcept [] s t ∧ KeepsControl s t) ∧
    (8 ≤ a.toNat → exec (.prn a) s = .next (s.takeException (.addressOutOfRange .register a.toNat)))

/-- R88 (the event's form is decision D11): PRA appends `(CHR, x[a])` to the output stream, for every byte. -/
def Obligations.PraEmitsCharacterEvent : Prop :=
  ∀ (a : Byte) (s : State),
    (∀ x, decode ⟨0x48, a, x⟩ = .ok (.pra a)) ∧
    (∀ i : Reg, a.toNat = i.val →
      ∃ t, exec (.pra a) s = .next t ∧ t.out = s.out ++ [.chr (s.getReg i)] ∧ t.pc = s.pc + 2 ∧
        KeepsRegsExcept [] s t ∧ KeepsMemExcept [] s t ∧ KeepsControl s t) ∧
    (8 ≤ a.toNat → exec (.pra a) s = .next (s.takeException (.addressOutOfRange .register a.toNat)))

/-- R89: HLT clears the running flag and changes nothing else: `pc` keeps the address of the HLT. After it the core has no
step, and without a fault record its status is Halted. A HLT at 0xFE or 0xFF never executes: its fetch faults. -/
def Obligations.HltStopsTheCoreInPlace : Prop :=
  ∀ s : State,
    (∀ x y, decode ⟨0x01, x, y⟩ = .ok .hlt) ∧
    (∃ t, exec .hlt s = .next t ∧ t.running = false ∧ t.pc = s.pc ∧ KeepsRegsExcept [] s t ∧
      KeepsMemExcept [] s t ∧ t.fl = s.fl ∧ t.fault = s.fault ∧ t.out = s.out ∧
      (∀ u, step t ≠ .next u) ∧ (s.fault = none → t.status = .halted)) ∧
    (s.running = true → s.pc = 0xFE ∨ s.pc = 0xFF → s.mem.read s.pc = 0x01 →
      step s = .next (s.takeException (.addressOutOfRange .memory 0x100)))

/-! ## The parameters SP_REG and FLAGS_RESET -/

/-- R5: the core takes SP_REG and FLAGS_RESET as named arguments. The host's core is `coreWith` at the model's values (log
entries 1 and 2); `exec` and the run follow the same SP_REG; and of the 18 instructions only PUSH, POP, CALL and RET depend on
it (R17). -/
def Obligations.SpRegAndFlagsResetAreArguments : Prop :=
  core = coreWith Config.spReg Config.flagsReset ∧
  (∀ (i : Instr) (s : State), exec i s = execWith Config.spReg i s) ∧
  (∀ (fuel : Nat) (s : State), runFor fuel s = runForWith Config.spReg fuel s) ∧
  ∀ (sp : Reg) (i : Instr) (s : State), i ≠ .ret → (∀ a, i ≠ .push a ∧ i ≠ .pop a ∧ i ≠ .call a) →
    execWith sp i s = exec i s

/-- R75 to R78 for every SP_REG (decisions D7, D8, D9): what PUSH, CALL, POP and RET do on a core whose stack pointer is
register `sp` with an operand `a` that names register `i`, which may be `sp` itself: their results and the stack bounds. -/
def Obligations.StackInstructionsFollowSpReg : Prop :=
  ∀ (sp i : Reg) (a : Byte) (s : State), a.toNat = i.val →
    (1 ≤ (s.getReg sp).toNat →
      (∃ t, execWith sp (.push a) s = .next t ∧ (t.getReg sp).toNat = (s.getReg sp).toNat - 1 ∧
        t.mem.read ((s.getReg sp).toNat - 1) = t.getReg i ∧ t.pc = s.pc + 2 ∧ KeepsRegsExcept [sp] s t ∧
        KeepsMemExcept [(s.getReg sp).toNat - 1] s t ∧ KeepsControl s t ∧ t.out = s.out) ∧
      ∃ t, execWith sp (.call a) s = .next t ∧ (t.getReg sp).toNat = (s.getReg sp).toNat - 1 ∧
        (s.pc ≤ 0xFD → (t.mem.read ((s.getReg sp).toNat - 1)).toNat = s.pc + 2) ∧ t.pc = (t.getReg i).toNat ∧
        KeepsRegsExcept [sp] s t ∧ KeepsMemExcept [(s.getReg sp).toNat - 1] s t ∧ KeepsControl s t ∧ t.out = s.out) ∧
    ((s.getReg sp).toNat = 0 →
      execWith sp (.push a) s = .next (s.takeException (.addressOutOfRange .memory (-1))) ∧
      execWith sp (.call a) s = .next (s.takeException (.addressOutOfRange .memory (-1)))) ∧
    (∀ v sp1 : Byte, v = s.mem.read (s.getReg sp).toNat → sp1 = (if i = sp then v else s.getReg sp) →
      (sp1.toNat < 0xFF →
        ∃ t, execWith sp (.pop a) s = .next t ∧ (i ≠ sp → t.getReg i = v) ∧ (t.getReg sp).toNat = sp1.toNat + 1 ∧
          t.pc = s.pc + 2 ∧ KeepsRegsExcept [i, sp] s t ∧ KeepsMemExcept [] s t ∧ KeepsControl s t ∧ t.out = s.out) ∧
      (sp1.toNat = 0xFF →
        execWith sp (.pop a) s = .next (s.takeException (.addressOutOfRange .stackPointer 0x100)))) ∧
    ((s.getReg sp).toNat < 0xFF →
      ∃ t, execWith sp .ret s = .next t ∧ t.pc = (s.mem.read (s.getReg sp).toNat).toNat ∧
        (t.getReg sp).toNat = (s.getReg sp).toNat + 1 ∧ KeepsRegsExcept [sp] s t ∧ KeepsMemExcept [] s t ∧
        KeepsControl s t ∧ t.out = s.out) ∧
    ((s.getReg sp).toNat = 0xFF →
      execWith sp .ret s = .next (s.takeException (.addressOutOfRange .stackPointer 0x100)))

/-- R5 with R18, R22, R23, R25, R28 (decisions D4, D10): the step of a core with any SP_REG keeps the machine's invariant, and
keeps exactly one flag set once that holds. -/
def Obligations.EveryCoreKeepsInvariant : Prop :=
  ∀ (sp : Reg) (s t : State), stepWith sp s = .next t →
    (s.Inv → t.Inv) ∧ (s.fl.oneHot = true → t.fl.oneHot = true)
end

