-- ==== Sys2Proof/Laws/Memory.lean ====
section
/-! SUPPORT. The laws of the byte memory: read after write, and the canonical form that every operation keeps. -/

namespace Sys2Proof.Machine

/-- An entry-free address reads as an unlisted one. -/
theorem Memory.read_of_not_listed {m : Memory} {a : Nat} (h : ∀ c ∈ m, c.1 ≠ a) : m.read a = Memory.unlisted := by
  induction m with
  | nil => rfl
  | cons c m ih =>
    obtain ⟨b, w⟩ := c
    have hb : b ≠ a := h (b, w) (by simp)
    simp only [Memory.read, if_neg hb]
    exact ih fun c hc => h c (by simp [hc])

theorem Memory.not_listed_erase (m : Memory) (a : Nat) : ∀ c ∈ m.erase a, c.1 ≠ a := by
  intro c hc
  simpa using (List.mem_filter.mp hc).2

theorem Memory.erase_cons (m : Memory) (b : Nat) (w : Byte) (a : Nat) :
    Memory.erase ((b, w) :: m) a = if b = a then m.erase a else (b, w) :: m.erase a := by
  unfold Memory.erase
  by_cases h : b = a <;> simp [h]

theorem Memory.read_erase_ne (m : Memory) {a b : Nat} (h : a ≠ b) : (m.erase a).read b = m.read b := by
  induction m with
  | nil => rfl
  | cons c m ih =>
    obtain ⟨d, w⟩ := c
    rw [Memory.erase_cons]
    split
    · next hd => rw [ih, Memory.read, if_neg (hd ▸ h)]
    · rw [Memory.read, Memory.read, ih]

theorem Memory.read_place_same {m : Memory} {a : Nat} (v : Byte) (h : ∀ c ∈ m, c.1 ≠ a) :
    (m.place a v).read a = v := by
  induction m with
  | nil => simp [Memory.place, Memory.read]
  | cons c m ih =>
    obtain ⟨b, w⟩ := c
    have hb : b ≠ a := h (b, w) (by simp)
    have ih := ih fun c hc => h c (by simp [hc])
    by_cases hlt : a < b <;> simp [Memory.place, Memory.read, hlt, hb, ih]

theorem Memory.read_place_ne (m : Memory) {a b : Nat} (v : Byte) (h : a ≠ b) : (m.place a v).read b = m.read b := by
  induction m with
  | nil => simp [Memory.place, Memory.read, h]
  | cons c m ih =>
    obtain ⟨d, w⟩ := c
    unfold Memory.place
    split
    · rw [Memory.read, if_neg h]
    · rw [Memory.read, Memory.read, ih]

/-- A read after a write to the same address gives the byte written (20_memory.md R40). -/
@[simp] theorem Memory.read_write_same (m : Memory) (a : Nat) (v : Byte) : (m.write a v).read a = v := by
  unfold Memory.write
  split
  · next h => rw [Memory.read_of_not_listed (m.not_listed_erase a), h]
  · exact Memory.read_place_same v (m.not_listed_erase a)

/-- A write leaves every other address alone. -/
theorem Memory.read_write_ne (m : Memory) {a b : Nat} (v : Byte) (h : a ≠ b) : (m.write a v).read b = m.read b := by
  unfold Memory.write
  split
  · exact m.read_erase_ne h
  · rw [Memory.read_place_ne _ v h, m.read_erase_ne h]

theorem Memory.read_write (m : Memory) (a b : Nat) (v : Byte) :
    (m.write a v).read b = if a = b then v else m.read b := by
  split
  · next h => rw [← h, Memory.read_write_same]
  · next h => exact m.read_write_ne v h

/-- A byte sequence written from `a` on leaves every address outside it alone. -/
theorem Memory.read_writeBytes_outside (bs : List Byte) (m : Memory) {a b : Nat} (h : b < a ∨ a + bs.length ≤ b) :
    (m.writeBytes a bs).read b = m.read b := by
  induction bs generalizing m a with
  | nil => rfl
  | cons v vs ih =>
    simp only [List.length_cons] at h
    rw [Memory.writeBytes, ih (m.write a v) (by omega), m.read_write_ne v (by omega)]

/-- A byte sequence written from `a` on is read back (20_memory.md R31). -/
theorem Memory.read_writeBytes (bs : List Byte) (m : Memory) (a k : Nat) (h : k < bs.length) :
    (m.writeBytes a bs).read (a + k) = bs[k] := by
  induction bs generalizing m a k with
  | nil => simp at h
  | cons v vs ih =>
    cases k with
    | zero =>
      rw [Memory.writeBytes, Memory.read_writeBytes_outside vs _ (by omega)]
      simp
    | succ k =>
      have h' : k < vs.length := by simpa using h
      have := ih (m.write a v) (a + 1) k h'
      rw [Memory.writeBytes, show a + (k + 1) = a + 1 + k by omega, this]
      rfl

theorem Memory.wfFrom_cons {lo b : Nat} {w : Byte} {m : Memory} :
    Memory.wfFrom lo ((b, w) :: m) = true ↔
      lo ≤ b ∧ b < 256 ∧ w ≠ Memory.unlisted ∧ Memory.wfFrom (b + 1) m = true := by
  simp [Memory.wfFrom, and_assoc]

theorem Memory.wfFrom_weaken {m : Memory} {lo lo' : Nat} (h : Memory.wfFrom lo m = true) (hle : lo' ≤ lo) :
    Memory.wfFrom lo' m = true := by
  cases m with
  | nil => rfl
  | cons c m =>
    obtain ⟨b, w⟩ := c
    rw [Memory.wfFrom_cons] at h ⊢
    exact ⟨by omega, h.2⟩

/-- Erasing keeps the canonical form. -/
theorem Memory.wfFrom_erase {m : Memory} {lo : Nat} (a : Nat) (h : Memory.wfFrom lo m = true) :
    Memory.wfFrom lo (m.erase a) = true := by
  induction m generalizing lo with
  | nil => rfl
  | cons c m ih =>
    obtain ⟨b, w⟩ := c
    rw [Memory.wfFrom_cons] at h
    have ih := ih h.2.2.2
    rw [Memory.erase_cons]
    split
    · exact Memory.wfFrom_weaken ih (by omega)
    · exact Memory.wfFrom_cons.mpr ⟨h.1, h.2.1, h.2.2.1, ih⟩

/-- Placing a byte that is listed nowhere and not the unlisted byte keeps the canonical form. -/
theorem Memory.wfFrom_place {m : Memory} {lo a : Nat} {v : Byte} (h : Memory.wfFrom lo m = true) (hlo : lo ≤ a)
    (ha : a < 256) (hv : v ≠ Memory.unlisted) (hm : ∀ c ∈ m, c.1 ≠ a) : Memory.wfFrom lo (m.place a v) = true := by
  induction m generalizing lo with
  | nil => exact Memory.wfFrom_cons.mpr ⟨hlo, ha, hv, rfl⟩
  | cons c m ih =>
    obtain ⟨b, w⟩ := c
    rw [Memory.wfFrom_cons] at h
    have hb : b ≠ a := hm (b, w) (by simp)
    unfold Memory.place
    split
    · next hlt =>
      exact Memory.wfFrom_cons.mpr ⟨hlo, ha, hv, Memory.wfFrom_cons.mpr ⟨by omega, h.2⟩⟩
    · exact Memory.wfFrom_cons.mpr
        ⟨h.1, h.2.1, h.2.2.1, ih h.2.2.2 (by omega) fun c hc => hm c (by simp [hc])⟩

/-- A write in range keeps the canonical form. -/
theorem Memory.wf_write {m : Memory} (h : m.wf = true) {a : Nat} (ha : a < 256) (v : Byte) :
    (m.write a v).wf = true := by
  have he := Memory.wfFrom_erase a h
  unfold Memory.write
  split
  · exact he
  · next hv => exact Memory.wfFrom_place he (by omega) ha hv (m.not_listed_erase a)

/-- A byte sequence that fits into memory keeps the canonical form. -/
theorem Memory.wf_writeBytes (bs : List Byte) {m : Memory} (h : m.wf = true) {a : Nat} (ha : a + bs.length ≤ 256) :
    (m.writeBytes a bs).wf = true := by
  induction bs generalizing m a with
  | nil => exact h
  | cons v vs ih =>
    simp only [List.length_cons] at ha
    exact ih (Memory.wf_write h (by omega) v) (by omega)

theorem Memory.read_below {m : Memory} {lo a : Nat} (h : Memory.wfFrom lo m = true) (ha : a < lo) :
    m.read a = Memory.unlisted := by
  induction m generalizing lo with
  | nil => rfl
  | cons c m ih =>
    obtain ⟨b, w⟩ := c
    rw [Memory.wfFrom_cons] at h
    simp only [Memory.read, if_neg (show b ≠ a by omega)]
    exact ih h.2.2.2 (by omega)

theorem Memory.eq_of_wfFrom {m n : Memory} {lo : Nat} (hm : Memory.wfFrom lo m = true) (hn : Memory.wfFrom lo n = true)
    (h : ∀ a, m.read a = n.read a) : m = n := by
  induction m generalizing n lo with
  | nil =>
    cases n with
    | nil => rfl
    | cons d n =>
      obtain ⟨b, w⟩ := d
      rw [Memory.wfFrom_cons] at hn
      exact absurd (by simpa [Memory.read] using (h b).symm) hn.2.2.1
  | cons c m ih =>
    obtain ⟨b, w⟩ := c
    have hm' := Memory.wfFrom_cons.mp hm
    cases n with
    | nil => exact absurd (by simpa [Memory.read] using h b) hm'.2.2.1
    | cons d n =>
      obtain ⟨b', w'⟩ := d
      have hn' := Memory.wfFrom_cons.mp hn
      have hb : b = b' := by
        rcases Nat.lt_trichotomy b b' with hlt | heq | hlt
        · have := h b
          rw [Memory.read_below (Memory.wfFrom_cons.mpr ⟨le_refl b', hn'.2⟩) hlt] at this
          exact absurd (by simpa [Memory.read] using this) hm'.2.2.1
        · exact heq
        · have := h b'
          rw [Memory.read_below (Memory.wfFrom_cons.mpr ⟨le_refl b, hm'.2⟩) hlt] at this
          exact absurd (by simpa [Memory.read] using this.symm) hn'.2.2.1
      subst hb
      have hw : w = w' := by simpa [Memory.read] using h b
      subst hw
      congr 1
      refine ih hm'.2.2.2 hn'.2.2.2 fun a => ?_
      by_cases hab : b = a
      · rw [Memory.read_below hm'.2.2.2 (by omega), Memory.read_below hn'.2.2.2 (by omega)]
      · simpa [Memory.read, hab] using h a

/-- Memories in canonical form that read alike are equal data. -/
theorem Memory.eq_of_read {m n : Memory} (hm : m.wf = true) (hn : n.wf = true) (h : ∀ a, m.read a = n.read a) :
    m = n :=
  Memory.eq_of_wfFrom hm hn h

end Sys2Proof.Machine
end

