-- ==== Sys2Proof/Laws/State.lean ====
section
/-! SUPPORT. What each update of the state does to each field, and the registers' read-after-write laws. -/

namespace Sys2Proof.Machine

@[simp] theorem State.setReg_regs (s : State) (i : Reg) (v : Byte) : (s.setReg i v).regs = s.regs.set i.val v i.isLt := rfl
@[simp] theorem State.setReg_pc (s : State) (i : Reg) (v : Byte) : (s.setReg i v).pc = s.pc := rfl
@[simp] theorem State.setReg_fl (s : State) (i : Reg) (v : Byte) : (s.setReg i v).fl = s.fl := rfl
@[simp] theorem State.setReg_mem (s : State) (i : Reg) (v : Byte) : (s.setReg i v).mem = s.mem := rfl
@[simp] theorem State.setReg_running (s : State) (i : Reg) (v : Byte) : (s.setReg i v).running = s.running := rfl
@[simp] theorem State.setReg_fault (s : State) (i : Reg) (v : Byte) : (s.setReg i v).fault = s.fault := rfl
@[simp] theorem State.setReg_out (s : State) (i : Reg) (v : Byte) : (s.setReg i v).out = s.out := rfl

@[simp] theorem State.setPc_regs (s : State) (n : Nat) : (s.setPc n).regs = s.regs := rfl
@[simp] theorem State.setPc_pc (s : State) (n : Nat) : (s.setPc n).pc = n := rfl
@[simp] theorem State.setPc_fl (s : State) (n : Nat) : (s.setPc n).fl = s.fl := rfl
@[simp] theorem State.setPc_mem (s : State) (n : Nat) : (s.setPc n).mem = s.mem := rfl
@[simp] theorem State.setPc_running (s : State) (n : Nat) : (s.setPc n).running = s.running := rfl
@[simp] theorem State.setPc_fault (s : State) (n : Nat) : (s.setPc n).fault = s.fault := rfl
@[simp] theorem State.setPc_out (s : State) (n : Nat) : (s.setPc n).out = s.out := rfl
@[simp] theorem State.setPc_getReg (s : State) (n : Nat) (k : Reg) : (s.setPc n).getReg k = s.getReg k := rfl

@[simp] theorem State.advance_regs (s : State) (n : Nat) : (s.advance n).regs = s.regs := rfl
@[simp] theorem State.advance_pc (s : State) (n : Nat) : (s.advance n).pc = s.pc + n := rfl
@[simp] theorem State.advance_fl (s : State) (n : Nat) : (s.advance n).fl = s.fl := rfl
@[simp] theorem State.advance_mem (s : State) (n : Nat) : (s.advance n).mem = s.mem := rfl
@[simp] theorem State.advance_running (s : State) (n : Nat) : (s.advance n).running = s.running := rfl
@[simp] theorem State.advance_fault (s : State) (n : Nat) : (s.advance n).fault = s.fault := rfl
@[simp] theorem State.advance_out (s : State) (n : Nat) : (s.advance n).out = s.out := rfl
@[simp] theorem State.advance_getReg (s : State) (n : Nat) (k : Reg) : (s.advance n).getReg k = s.getReg k := rfl

@[simp] theorem State.jumpTo_regs (s : State) (v : Byte) : (s.jumpTo v).regs = s.regs := rfl
@[simp] theorem State.jumpTo_pc (s : State) (v : Byte) : (s.jumpTo v).pc = v.toNat := rfl
@[simp] theorem State.jumpTo_fl (s : State) (v : Byte) : (s.jumpTo v).fl = s.fl := rfl
@[simp] theorem State.jumpTo_mem (s : State) (v : Byte) : (s.jumpTo v).mem = s.mem := rfl
@[simp] theorem State.jumpTo_running (s : State) (v : Byte) : (s.jumpTo v).running = s.running := rfl
@[simp] theorem State.jumpTo_fault (s : State) (v : Byte) : (s.jumpTo v).fault = s.fault := rfl
@[simp] theorem State.jumpTo_out (s : State) (v : Byte) : (s.jumpTo v).out = s.out := rfl
@[simp] theorem State.jumpTo_getReg (s : State) (v : Byte) (k : Reg) : (s.jumpTo v).getReg k = s.getReg k := rfl

@[simp] theorem State.setFlags_regs (s : State) (fl : Flags) : (s.setFlags fl).regs = s.regs := rfl
@[simp] theorem State.setFlags_pc (s : State) (fl : Flags) : (s.setFlags fl).pc = s.pc := rfl
@[simp] theorem State.setFlags_fl (s : State) (fl : Flags) : (s.setFlags fl).fl = fl := rfl
@[simp] theorem State.setFlags_mem (s : State) (fl : Flags) : (s.setFlags fl).mem = s.mem := rfl
@[simp] theorem State.setFlags_running (s : State) (fl : Flags) : (s.setFlags fl).running = s.running := rfl
@[simp] theorem State.setFlags_fault (s : State) (fl : Flags) : (s.setFlags fl).fault = s.fault := rfl
@[simp] theorem State.setFlags_out (s : State) (fl : Flags) : (s.setFlags fl).out = s.out := rfl
@[simp] theorem State.setFlags_getReg (s : State) (fl : Flags) (k : Reg) : (s.setFlags fl).getReg k = s.getReg k := rfl

@[simp] theorem State.setMem_regs (s : State) (m : Memory) : (s.setMem m).regs = s.regs := rfl
@[simp] theorem State.setMem_pc (s : State) (m : Memory) : (s.setMem m).pc = s.pc := rfl
@[simp] theorem State.setMem_fl (s : State) (m : Memory) : (s.setMem m).fl = s.fl := rfl
@[simp] theorem State.setMem_mem (s : State) (m : Memory) : (s.setMem m).mem = m := rfl
@[simp] theorem State.setMem_running (s : State) (m : Memory) : (s.setMem m).running = s.running := rfl
@[simp] theorem State.setMem_fault (s : State) (m : Memory) : (s.setMem m).fault = s.fault := rfl
@[simp] theorem State.setMem_out (s : State) (m : Memory) : (s.setMem m).out = s.out := rfl
@[simp] theorem State.setMem_getReg (s : State) (m : Memory) (k : Reg) : (s.setMem m).getReg k = s.getReg k := rfl

@[simp] theorem State.emit_regs (s : State) (e : Event) : (s.emit e).regs = s.regs := rfl
@[simp] theorem State.emit_pc (s : State) (e : Event) : (s.emit e).pc = s.pc := rfl
@[simp] theorem State.emit_fl (s : State) (e : Event) : (s.emit e).fl = s.fl := rfl
@[simp] theorem State.emit_mem (s : State) (e : Event) : (s.emit e).mem = s.mem := rfl
@[simp] theorem State.emit_running (s : State) (e : Event) : (s.emit e).running = s.running := rfl
@[simp] theorem State.emit_fault (s : State) (e : Event) : (s.emit e).fault = s.fault := rfl
@[simp] theorem State.emit_out (s : State) (e : Event) : (s.emit e).out = s.out ++ [e] := rfl
@[simp] theorem State.emit_getReg (s : State) (e : Event) (k : Reg) : (s.emit e).getReg k = s.getReg k := rfl

@[simp] theorem State.stop_regs (s : State) : (s.stop).regs = s.regs := rfl
@[simp] theorem State.stop_pc (s : State) : (s.stop).pc = s.pc := rfl
@[simp] theorem State.stop_fl (s : State) : (s.stop).fl = s.fl := rfl
@[simp] theorem State.stop_mem (s : State) : (s.stop).mem = s.mem := rfl
@[simp] theorem State.stop_running (s : State) : (s.stop).running = false := rfl
@[simp] theorem State.stop_fault (s : State) : (s.stop).fault = s.fault := rfl
@[simp] theorem State.stop_out (s : State) : (s.stop).out = s.out := rfl
@[simp] theorem State.stop_getReg (s : State) (k : Reg) : (s.stop).getReg k = s.getReg k := rfl

@[simp] theorem State.takeException_regs (s : State) (e : Exn) : (s.takeException e).regs = s.regs := rfl
@[simp] theorem State.takeException_pc (s : State) (e : Exn) : (s.takeException e).pc = s.pc := rfl
@[simp] theorem State.takeException_fl (s : State) (e : Exn) : (s.takeException e).fl = s.fl := rfl
@[simp] theorem State.takeException_mem (s : State) (e : Exn) : (s.takeException e).mem = s.mem := rfl
@[simp] theorem State.takeException_running (s : State) (e : Exn) : (s.takeException e).running = false := rfl
@[simp] theorem State.takeException_fault (s : State) (e : Exn) : (s.takeException e).fault = some (s.recordOf e) := rfl
@[simp] theorem State.takeException_out (s : State) (e : Exn) : (s.takeException e).out = s.out := rfl
@[simp] theorem State.takeException_getReg (s : State) (e : Exn) (k : Reg) : (s.takeException e).getReg k = s.getReg k := rfl

theorem State.getReg_setReg (s : State) (i k : Reg) (v : Byte) :
    (s.setReg i v).getReg k = if i = k then v else s.getReg k := by
  simp only [State.getReg, State.setReg, Vector.getElem_set, Fin.ext_iff]

@[simp] theorem State.getReg_setReg_self (s : State) (i : Reg) (v : Byte) : (s.setReg i v).getReg i = v := by
  simp [State.getReg_setReg]

theorem State.getReg_setReg_ne (s : State) {i k : Reg} (v : Byte) (h : i ≠ k) :
    (s.setReg i v).getReg k = s.getReg k := by
  simp [State.getReg_setReg, h]

/-- The registers after reset (10_state.md R16), for every choice of SP_REG and FLAGS_RESET. -/
theorem State.getReg_resetWith (sp k : Reg) (fl : Flags) :
    (State.resetWith sp fl).getReg k = if sp = k then Config.spResetValue else Config.regResetValue := by
  simp only [State.getReg, State.resetWith, Vector.getElem_set, Vector.getElem_replicate, Fin.ext_iff]

end Sys2Proof.Machine
end

