-- ==== Sys2Proof/Laws/Ops.lean ====
section
/-! SUPPORT. One lemma per shared operation: what it answers, and from what answer what follows. Proofs cite these instead
of unfolding the operation. -/

namespace Sys2Proof.Machine

/-- A handler's sequence after a primitive that answered, or raised. -/
@[simp] theorem ok_bind {α β : Type} (x : α) (f : α → Except Exn β) : ((Except.ok x : Except Exn α) >>= f) = f x := rfl

@[simp] theorem error_bind {α β : Type} (e : Exn) (f : α → Except Exn β) :
    ((Except.error e : Except Exn α) >>= f) = .error e := rfl

theorem ridx_of_lt {v : Byte} (h : v.toNat < 8) : ridx v = .ok ⟨v.toNat, h⟩ := by
  simp [ridx, h]

theorem ridx_of_ge {v : Byte} (h : 8 ≤ v.toNat) : ridx v = .error (.addressOutOfRange .register v.toNat) := by
  simp [ridx, h]

/-- Everything `ridx` can answer (00_scope.md R7). -/
theorem ridx_cases (v : Byte) :
    (∃ h : v.toNat < 8, ridx v = .ok ⟨v.toNat, h⟩) ∨
      (8 ≤ v.toNat ∧ ridx v = .error (.addressOutOfRange .register v.toNat)) := by
  rcases Nat.lt_or_ge v.toNat 8 with h | h
  · exact .inl ⟨h, ridx_of_lt h⟩
  · exact .inr ⟨h, ridx_of_ge h⟩

/-- A byte that is the number of register `i` names `i`. -/
theorem ridx_of_val {v : Byte} {i : Reg} (h : v.toNat = i.val) : ridx v = .ok i := by
  rw [ridx_of_lt (h ▸ i.isLt)]
  congr 1
  exact Fin.ext h

theorem val_of_ridx {v : Byte} {i : Reg} (h : ridx v = .ok i) : v.toNat = i.val := by
  rcases ridx_cases v with ⟨hl, hp⟩ | ⟨-, hp⟩
  · rw [hp] at h
    cases h
    rfl
  · simp [hp] at h

theorem inMemory_natCast (n : Nat) : inMemory (n : Int) = decide (n < 256) := by
  simp [inMemory, Config.memSize]

/-- A read at a natural number: in memory below 256 (20_memory.md R38). -/
theorem State.memRead_natCast (s : State) (n : Nat) :
    s.memRead (n : Int) = if n < 256 then .ok (s.mem.read n) else .error (.addressOutOfRange .memory n) := by
  simp [State.memRead, inMemory_natCast]

/-- A read at a register's value is always in memory (44_data_io.md R83). -/
@[simp] theorem State.memRead_effectiveAddr (s t : State) (r : Reg) :
    s.memRead (t.effectiveAddr r) = .ok (s.mem.read (t.getReg r).toNat) := by
  rw [State.effectiveAddr, State.memRead_natCast, if_pos (t.getReg r).isLt]

/-- A write at a register's value is always in memory (44_data_io.md R83). -/
@[simp] theorem State.memWrite_effectiveAddr (s t : State) (r : Reg) (v : Byte) :
    s.memWrite (t.effectiveAddr r) v = .ok (s.setMem (s.mem.write (t.getReg r).toNat v)) := by
  have h : (t.getReg r).toNat < 256 := (t.getReg r).isLt
  simp [State.memWrite, State.effectiveAddr, inMemory_natCast, h]

/-- The byte fetched at `pc` (60_exceptions.md R93). -/
theorem State.fetchedOp_eq (s : State) : s.fetchedOp = if s.pc ≤ 0xFF then some (s.mem.read s.pc) else none := by
  unfold State.fetchedOp
  rw [inMemory_natCast]
  by_cases h : s.pc < 256
  · simp [h, show s.pc ≤ 255 by omega]
  · simp [h, show ¬ s.pc ≤ 255 by omega]

/-- Every record the machine writes has the form of 60_exceptions.md R90 and R93. -/
theorem State.recordOf_wf (s : State) (e : Exn) : (s.recordOf e).wf := by
  have hop : s.fetchedOp.isSome = true ↔ s.pc ≤ 0xFF := by
    rw [State.fetchedOp_eq]
    split <;> simp [*]
  cases e <;>
    simp [FaultRecord.wf, State.recordOf, Exn.name, Exn.space, Exn.value, Exn.tag, ExcName.code, hop]

/-- A byte's predecessor and successor where they do not wrap. -/
theorem toNat_sub_one {v : Byte} (h : 1 ≤ v.toNat) : (v - 1).toNat = v.toNat - 1 := by
  rw [BitVec.toNat_sub]
  simp
  omega

theorem toNat_add_one {v : Byte} (h : v.toNat < 255) : (v + 1).toNat = v.toNat + 1 := by
  rw [BitVec.toNat_add]
  simp
  omega

/-- The stack pointer moves down where it is not 0 (42_stack.md R74). -/
theorem State.decSP_of_pos (s : State) (sp : Reg) (h : 1 ≤ (s.getReg sp).toNat) :
    s.decSP sp = .ok (s.setReg sp (s.getReg sp - 1)) := by
  have hlt := (s.getReg sp).isLt
  have hn : ¬ ((s.getReg sp).toNat : Int) - 1 < 0 := by omega
  have hv : BitVec.ofInt 8 ((s.getReg sp).toNat - 1) = s.getReg sp - 1 := by
    apply BitVec.eq_of_toNat_eq
    rw [BitVec.toNat_ofInt, BitVec.toNat_sub]
    simp
    omega
  simp only [State.decSP, if_neg hn, hv]

theorem State.decSP_of_zero (s : State) (sp : Reg) (h : (s.getReg sp).toNat = 0) :
    s.decSP sp = .error (.addressOutOfRange .memory (-1)) := by
  simp [State.decSP, h]

/-- The stack pointer moves up where it is not 0xFF (42_stack.md R74). -/
theorem State.incSP_of_lt (s : State) (sp : Reg) (h : (s.getReg sp).toNat < 255) :
    s.incSP sp = .ok (s.setReg sp (s.getReg sp + 1)) := by
  have hn : ¬ ((s.getReg sp).toNat : Int) + 1 > 0xFF := by omega
  have hv : BitVec.ofInt 8 ((s.getReg sp).toNat + 1) = s.getReg sp + 1 := by
    apply BitVec.eq_of_toNat_eq
    rw [BitVec.toNat_ofInt, BitVec.toNat_add]
    simp
    omega
  simp only [State.incSP, if_neg hn, hv]

theorem State.incSP_of_top (s : State) (sp : Reg) (h : (s.getReg sp).toNat = 255) :
    s.incSP sp = .error (.addressOutOfRange .stackPointer 0x100) := by
  simp [State.incSP, h]

@[simp] theorem State.complete_ok (s t : State) : s.complete (.ok t) = .next t := rfl

@[simp] theorem State.complete_error (s : State) (e : Exn) : s.complete (.error e) = .next (s.takeException e) := rfl

/-- Everything the end of a handler can answer: what it computed, or the exception taken in the state before (R8). -/
theorem State.complete_next {s t : State} {r : Except Exn State} (h : s.complete r = .next t) :
    r = .ok t ∨ ∃ e, r = .error e ∧ t = s.takeException e := by
  cases r with
  | ok u => cases h; exact .inl rfl
  | error e => cases h; exact .inr ⟨e, rfl, rfl⟩

/-- The two register operands, A checked before B (60_exceptions.md R95). -/
theorem regPair_of_lt {a b : Byte} (ha : a.toNat < 8) (hb : b.toNat < 8) :
    regPair a b = .ok (⟨a.toNat, ha⟩, ⟨b.toNat, hb⟩) := by
  simp [regPair, ridx_of_lt ha, ridx_of_lt hb, bind, Except.bind, pure, Except.pure]

theorem regPair_of_val {a b : Byte} {i j : Reg} (ha : a.toNat = i.val) (hb : b.toNat = j.val) :
    regPair a b = .ok (i, j) := by
  simp [regPair, ridx_of_val ha, ridx_of_val hb, bind, Except.bind, pure, Except.pure]

theorem regPair_of_ge_left {a b : Byte} (ha : 8 ≤ a.toNat) :
    regPair a b = .error (.addressOutOfRange .register a.toNat) := by
  simp [regPair, ridx_of_ge ha, bind, Except.bind]

theorem regPair_of_ge_right {a b : Byte} (ha : a.toNat < 8) (hb : 8 ≤ b.toNat) :
    regPair a b = .error (.addressOutOfRange .register b.toNat) := by
  simp [regPair, ridx_of_lt ha, ridx_of_ge hb, bind, Except.bind]

/-- Everything `regPair` can answer. -/
theorem regPair_cases (a b : Byte) :
    (∃ i j, regPair a b = .ok (i, j) ∧ i.val = a.toNat ∧ j.val = b.toNat) ∨
      (∃ v : Byte, 8 ≤ v.toNat ∧ regPair a b = .error (.addressOutOfRange .register v.toNat) ∧ v ∈ [a, b]) := by
  rcases Nat.lt_or_ge a.toNat 8 with ha | ha
  · rcases Nat.lt_or_ge b.toNat 8 with hb | hb
    · exact .inl ⟨_, _, regPair_of_lt ha hb, rfl, rfl⟩
    · exact .inr ⟨b, hb, regPair_of_ge_right ha hb, by simp⟩
  · exact .inr ⟨a, ha, regPair_of_ge_left ha, by simp⟩

/-- Everything a pair instruction of the ALU does when it answers a state. -/
theorem State.aluPair_ok {s u : State} {t : AluTag} {a b : Byte} (h : s.aluPair t a b = .ok u) :
    ∃ i j r, regPair a b = .ok (i, j) ∧ alu t (s.getReg i) (s.getReg j) = .ok r ∧ u = (s.aluWrite i r).advance 3 := by
  unfold State.aluPair at h
  rcases regPair_cases a b with ⟨i, j, hp, -, -⟩ | ⟨v, -, hp, -⟩
  · cases hr : alu t (s.getReg i) (s.getReg j) with
    | ok r =>
      simp only [hp, hr, bind, Except.bind, pure, Except.pure, Except.ok.injEq] at h
      exact ⟨i, j, r, hp, hr, h.symm⟩
    | error e => simp [hp, hr, bind, Except.bind] at h
  · simp [hp, bind, Except.bind] at h

/-- Everything a single-operand instruction of the ALU does when it answers a state. -/
theorem State.aluSingle_ok {s u : State} {t : AluTag} {a : Byte} (h : s.aluSingle t a = .ok u) :
    ∃ i r, ridx a = .ok i ∧ alu t (s.getReg i) 0 = .ok r ∧ u = (s.aluWrite i r).advance 2 := by
  unfold State.aluSingle regOperand at h
  rcases ridx_cases a with ⟨hl, hp⟩ | ⟨-, hp⟩
  · cases hr : alu t (s.getReg ⟨a.toNat, hl⟩) 0 with
    | ok r =>
      simp only [hp, hr, bind, Except.bind, pure, Except.pure, Except.ok.injEq] at h
      exact ⟨_, r, hp, hr, h.symm⟩
    | error e => simp only [hp, hr, bind, Except.bind, reduceCtorEq] at h
  · simp [hp, bind, Except.bind] at h

/-- A push where SP is not 0: SP moves, then the byte, computed in the state in which SP has moved, goes to the new SP. -/
theorem State.pushByte_of_pos (s : State) (sp : Reg) (val : State → Byte) (h : 1 ≤ (s.getReg sp).toNat) :
    s.pushByte sp val =
      .ok ((s.setReg sp (s.getReg sp - 1)).setMem
        (s.mem.write (s.getReg sp - 1).toNat (val (s.setReg sp (s.getReg sp - 1))))) := by
  simp [State.pushByte, State.decSP_of_pos s sp h, bind, Except.bind]

theorem State.pushByte_of_zero (s : State) (sp : Reg) (val : State → Byte) (h : (s.getReg sp).toNat = 0) :
    s.pushByte sp val = .error (.addressOutOfRange .memory (-1)) := by
  simp [State.pushByte, State.decSP_of_zero s sp h, bind, Except.bind]

/-- Everything a push can answer. -/
theorem State.pushByte_cases (s : State) (sp : Reg) (val : State → Byte) :
    (1 ≤ (s.getReg sp).toNat ∧ s.pushByte sp val =
      .ok ((s.setReg sp (s.getReg sp - 1)).setMem
        (s.mem.write (s.getReg sp - 1).toNat (val (s.setReg sp (s.getReg sp - 1)))))) ∨
    ((s.getReg sp).toNat = 0 ∧ s.pushByte sp val = .error (.addressOutOfRange .memory (-1))) := by
  rcases Nat.eq_zero_or_pos (s.getReg sp).toNat with h | h
  · exact .inr ⟨h, s.pushByte_of_zero sp val h⟩
  · exact .inl ⟨h, s.pushByte_of_pos sp val h⟩

/-- Everything `incSP` can answer. -/
theorem State.incSP_cases (s : State) (sp : Reg) :
    ((s.getReg sp).toNat < 255 ∧ s.incSP sp = .ok (s.setReg sp (s.getReg sp + 1))) ∨
      ((s.getReg sp).toNat = 255 ∧ s.incSP sp = .error (.addressOutOfRange .stackPointer 0x100)) := by
  have := (s.getReg sp).isLt
  rcases Nat.lt_or_ge (s.getReg sp).toNat 255 with h | h
  · exact .inl ⟨h, s.incSP_of_lt sp h⟩
  · have h : (s.getReg sp).toNat = 255 := by omega
    exact .inr ⟨h, s.incSP_of_top sp h⟩

/-- Everything PUSH's handler does when it answers a state (42_stack.md R75). -/
theorem State.pushHandler_ok {s u : State} {sp : Reg} {a : Byte} (h : s.pushHandler sp a = .ok u) :
    ∃ i, ridx a = .ok i ∧ 1 ≤ (s.getReg sp).toNat ∧
      u = ((s.setReg sp (s.getReg sp - 1)).setMem
        (s.mem.write (s.getReg sp - 1).toNat ((s.setReg sp (s.getReg sp - 1)).getReg i))).advance 2 := by
  unfold State.pushHandler regOperand at h
  rcases ridx_cases a with ⟨hl, hp⟩ | ⟨-, hp⟩
  · rcases s.pushByte_cases sp (fun s1 => s1.getReg ⟨a.toNat, hl⟩) with ⟨hz, hb⟩ | ⟨-, hb⟩
    · simp only [hp, hb, bind, Except.bind, pure, Except.pure, Except.ok.injEq] at h
      exact ⟨_, hp, hz, h.symm⟩
    · simp [hp, hb, bind, Except.bind] at h
  · simp [hp, bind, Except.bind] at h

/-- Everything POP's handler does when it answers a state (42_stack.md R76). -/
theorem State.popHandler_ok {s u : State} {sp : Reg} {a : Byte} (h : s.popHandler sp a = .ok u) :
    ∃ i t, ridx a = .ok i ∧ t = s.setReg i (s.mem.read (s.getReg sp).toNat) ∧ (t.getReg sp).toNat < 255 ∧
      u = (t.setReg sp (t.getReg sp + 1)).advance 2 := by
  unfold State.popHandler regOperand at h
  rcases ridx_cases a with ⟨hl, hp⟩ | ⟨-, hp⟩
  · rcases (s.setReg ⟨a.toNat, hl⟩ (s.mem.read (s.getReg sp).toNat)).incSP_cases sp with ⟨hz, hb⟩ | ⟨-, hb⟩
    · simp only [hp, hb, State.memRead_effectiveAddr, bind, Except.bind, pure, Except.pure, Except.ok.injEq] at h
      exact ⟨_, _, hp, rfl, hz, h.symm⟩
    · simp [hp, hb, bind, Except.bind] at h
  · simp [hp, bind, Except.bind] at h

/-- Everything CALL's handler does when it answers a state (42_stack.md R77). -/
theorem State.callHandler_ok {s u : State} {sp : Reg} {a : Byte} (h : s.callHandler sp a = .ok u) :
    ∃ i, ridx a = .ok i ∧ 1 ≤ (s.getReg sp).toNat ∧
      u = ((s.setReg sp (s.getReg sp - 1)).setMem
        (s.mem.write (s.getReg sp - 1).toNat (BitVec.ofNat 8 (s.pc + 2)))).jumpTo
          ((s.setReg sp (s.getReg sp - 1)).getReg i) := by
  unfold State.callHandler regOperand at h
  rcases ridx_cases a with ⟨hl, hp⟩ | ⟨-, hp⟩
  · rcases s.pushByte_cases sp (fun s1 => BitVec.ofNat 8 (s1.pc + 2)) with ⟨hz, hb⟩ | ⟨-, hb⟩
    · simp only [hp, hb, bind, Except.bind, pure, Except.pure, Except.ok.injEq] at h
      exact ⟨_, hp, hz, h.symm⟩
    · simp [hp, hb, bind, Except.bind] at h
  · simp [hp, bind, Except.bind] at h

/-- Everything RET's handler does when it answers a state (42_stack.md R78). -/
theorem State.retHandler_ok {s u : State} {sp : Reg} (h : s.retHandler sp = .ok u) :
    (s.getReg sp).toNat < 255 ∧
      u = (s.setReg sp (s.getReg sp + 1)).jumpTo (s.mem.read (s.getReg sp).toNat) := by
  unfold State.retHandler at h
  rcases s.incSP_cases sp with ⟨hz, hb⟩ | ⟨-, hb⟩
  · simp only [hb, State.memRead_effectiveAddr, bind, Except.bind, pure, Except.pure, Except.ok.injEq] at h
    exact ⟨hz, h.symm⟩
  · simp [hb, bind, Except.bind] at h

/-- Everything a taken jump does when it answers a state (43_control.md R79). -/
theorem State.jumpReg_ok {s u : State} {a : Byte} (h : s.jumpReg a = .ok u) :
    ∃ i, ridx a = .ok i ∧ u = s.jumpTo (s.getReg i) := by
  unfold State.jumpReg regOperand at h
  rcases ridx_cases a with ⟨hl, hp⟩ | ⟨-, hp⟩
  · simp only [hp, bind, Except.bind, pure, Except.pure, Except.ok.injEq] at h
    exact ⟨_, hp, h.symm⟩
  · simp [hp, bind, Except.bind] at h

/-- Everything a conditional jump does when it answers a state (43_control.md R79). -/
theorem State.jumpIf_ok {s u : State} {c : Bool} {a : Byte} (h : s.jumpIf c a = .ok u) :
    (c = true ∧ ∃ i, ridx a = .ok i ∧ u = s.jumpTo (s.getReg i)) ∨ (c = false ∧ u = s.advance 2) := by
  cases c with
  | true => exact .inl ⟨rfl, State.jumpReg_ok h⟩
  | false =>
    cases h
    exact .inr ⟨rfl, rfl⟩

/-- Everything PRN and PRA do when they answer a state (44_data_io.md R87, R88). -/
theorem State.print_ok {s u : State} {kind : Byte → Event} {a : Byte} (h : s.print kind a = .ok u) :
    ∃ i, ridx a = .ok i ∧ u = (s.emit (kind (s.getReg i))).advance 2 := by
  unfold State.print regOperand at h
  rcases ridx_cases a with ⟨hl, hp⟩ | ⟨-, hp⟩
  · simp only [hp, bind, Except.bind, pure, Except.pure, Except.ok.injEq] at h
    exact ⟨_, hp, h.symm⟩
  · simp [hp, bind, Except.bind] at h

/-- Everything LDI's handler does when it answers a state (44_data_io.md R84). -/
theorem State.ldiHandler_ok {s u : State} {a imm : Byte} (h : s.ldiHandler a imm = .ok u) :
    ∃ i, ridx a = .ok i ∧ u = (s.setReg i imm).advance 3 := by
  unfold State.ldiHandler regOperand at h
  rcases ridx_cases a with ⟨hl, hp⟩ | ⟨-, hp⟩
  · simp only [hp, immOperand, bind, Except.bind, pure, Except.pure, Except.ok.injEq] at h
    exact ⟨_, hp, h.symm⟩
  · simp [hp, bind, Except.bind] at h

/-- Everything LD's handler does when it answers a state (44_data_io.md R85). -/
theorem State.ldHandler_ok {s u : State} {a b : Byte} (h : s.ldHandler a b = .ok u) :
    ∃ i j, regPair a b = .ok (i, j) ∧ u = (s.setReg i (s.mem.read (s.getReg j).toNat)).advance 3 := by
  unfold State.ldHandler at h
  rcases regPair_cases a b with ⟨i, j, hp, -, -⟩ | ⟨v, -, hp, -⟩
  · simp only [hp, State.memRead_effectiveAddr, bind, Except.bind, pure, Except.pure, Except.ok.injEq] at h
    exact ⟨i, j, hp, h.symm⟩
  · simp [hp, bind, Except.bind] at h

/-- Everything ST's handler does when it answers a state (44_data_io.md R86). -/
theorem State.stHandler_ok {s u : State} {a b : Byte} (h : s.stHandler a b = .ok u) :
    ∃ i j, regPair a b = .ok (i, j) ∧
      u = (s.setMem (s.mem.write (s.getReg i).toNat (s.getReg j))).advance 3 := by
  unfold State.stHandler at h
  rcases regPair_cases a b with ⟨i, j, hp, -, -⟩ | ⟨v, -, hp, -⟩
  · simp only [hp, State.memWrite_effectiveAddr, bind, Except.bind, pure, Except.pure, Except.ok.injEq] at h
    exact ⟨i, j, hp, h.symm⟩
  · simp [hp, bind, Except.bind] at h

theorem namesReg_of_lt {v : Byte} (h : v.toNat < 8) : namesReg v = true := decide_eq_true h

theorem namesReg_of_ge {v : Byte} (h : 8 ≤ v.toNat) : namesReg v = false := decide_eq_false (Nat.not_lt.mpr h)

/-- One register operand in use: it is the bad one, or there is none. -/
theorem State.badOperand?_one {s : State} {i : Instr} {v : Byte} (hu : s.usesOperands i = true)
    (hm : i.regOperands = [v]) : s.badOperand? i = if namesReg v then none else some v := by
  cases h : namesReg v <;> simp [State.badOperand?, hu, hm, h]

/-- Two register operands in use: A is looked at before B (60_exceptions.md R95). -/
theorem State.badOperand?_two {s : State} {i : Instr} {a b : Byte} (hu : s.usesOperands i = true)
    (hm : i.regOperands = [a, b]) :
    s.badOperand? i = if namesReg a then (if namesReg b then none else some b) else some a := by
  cases ha : namesReg a <;> cases hb : namesReg b <;> simp [State.badOperand?, hu, hm, ha, hb]

/-- A bad operand is a register operand in use, and names no register. -/
theorem State.badOperand?_some {s : State} {i : Instr} {v : Byte} (h : s.badOperand? i = some v) :
    s.usesOperands i = true ∧ v ∈ i.regOperands ∧ 8 ≤ v.toNat := by
  unfold State.badOperand? at h
  split at h
  · next hu =>
    have hv := List.find?_some (p := fun v => !namesReg v) h
    refine ⟨hu, List.mem_of_find?_eq_some h, ?_⟩
    simpa [namesReg] using hv
  · cases h

/-- A register operand in use that `ridx` rejects is a cause of the instruction's exception. -/
theorem cause_of_ridx_error {sp : Reg} {s : State} {i : Instr} {v : Byte} {e : Exn} (hu : s.usesOperands i = true)
    (hm : i.regOperands = [v]) (h : ridx v = .error e) : ∃ m w, e = .addressOutOfRange m w ∧ Cause sp s i m w := by
  rcases ridx_cases v with ⟨_, hp⟩ | ⟨hl, hp⟩
  · simp [hp] at h
  · rw [hp] at h
    cases h
    exact ⟨_, _, rfl, .operand (by rw [State.badOperand?_one hu hm, namesReg_of_ge hl]; rfl)⟩

theorem cause_of_regPair_error {sp : Reg} {s : State} {i : Instr} {a b : Byte} {e : Exn} (hu : s.usesOperands i = true)
    (hm : i.regOperands = [a, b]) (h : regPair a b = .error e) :
    ∃ m w, e = .addressOutOfRange m w ∧ Cause sp s i m w := by
  have hb := State.badOperand?_two hu hm
  rcases Nat.lt_or_ge a.toNat 8 with hla | hga
  · rcases Nat.lt_or_ge b.toNat 8 with hlb | hgb
    · simp [regPair_of_lt hla hlb] at h
    · rw [regPair_of_ge_right hla hgb] at h
      cases h
      exact ⟨_, _, rfl, .operand (by rw [hb, namesReg_of_lt hla, namesReg_of_ge hgb]; rfl)⟩
  · rw [regPair_of_ge_left hga] at h
    cases h
    exact ⟨_, _, rfl, .operand (by rw [hb, namesReg_of_ge hga]; rfl)⟩

/-- A pair instruction of the ALU with a known tag raises only what its operands raise. -/
theorem State.aluPair_error {s : State} {t : AluTag} {a b : Byte} {e : Exn} (h : s.aluPair t a b = .error e)
    (ht : ∀ u v, ∃ r, alu t u v = .ok r) : regPair a b = .error e := by
  unfold State.aluPair at h
  rcases regPair_cases a b with ⟨i, j, hp, -, -⟩ | ⟨v, -, hp, -⟩
  · obtain ⟨r, hr⟩ := ht (s.getReg i) (s.getReg j)
    simp [hp, hr, bind, Except.bind, pure, Except.pure] at h
  · simpa [hp, bind, Except.bind] using h

theorem State.aluSingle_error {s : State} {t : AluTag} {a : Byte} {e : Exn} (h : s.aluSingle t a = .error e)
    (ht : ∀ u v, ∃ r, alu t u v = .ok r) : ridx a = .error e := by
  unfold State.aluSingle regOperand at h
  rcases ridx_cases a with ⟨hl, hp⟩ | ⟨-, hp⟩
  · obtain ⟨r, hr⟩ := ht (s.getReg ⟨a.toNat, hl⟩) 0
    simp only [hp, hr, bind, Except.bind, pure, Except.pure, reduceCtorEq] at h
  · simpa [hp, bind, Except.bind] using h

/-- PUSH raises what its operand raises, or the stack bound at SP = 0 (42_stack.md R75). -/
theorem State.pushHandler_error {s : State} {sp : Reg} {a : Byte} {e : Exn} (h : s.pushHandler sp a = .error e) :
    ridx a = .error e ∨ (namesReg a = true ∧ (s.getReg sp).toNat = 0 ∧ e = .addressOutOfRange .memory (-1)) := by
  unfold State.pushHandler regOperand at h
  rcases ridx_cases a with ⟨hl, hp⟩ | ⟨-, hp⟩
  · rcases s.pushByte_cases sp (fun s1 => s1.getReg ⟨a.toNat, hl⟩) with ⟨hz, hb⟩ | ⟨hz, hb⟩
    · simp [hp, hb, bind, Except.bind, pure, Except.pure] at h
    · simp only [hp, hb, bind, Except.bind, Except.error.injEq] at h
      exact .inr ⟨namesReg_of_lt hl, hz, h.symm⟩
  · exact .inl (by simpa [hp, bind, Except.bind] using h)

/-- CALL raises what its operand raises, or the stack bound at SP = 0 (42_stack.md R77). -/
theorem State.callHandler_error {s : State} {sp : Reg} {a : Byte} {e : Exn} (h : s.callHandler sp a = .error e) :
    ridx a = .error e ∨ (namesReg a = true ∧ (s.getReg sp).toNat = 0 ∧ e = .addressOutOfRange .memory (-1)) := by
  unfold State.callHandler regOperand at h
  rcases ridx_cases a with ⟨hl, hp⟩ | ⟨-, hp⟩
  · rcases s.pushByte_cases sp (fun s1 => BitVec.ofNat 8 (s1.pc + 2)) with ⟨hz, hb⟩ | ⟨hz, hb⟩
    · simp [hp, hb, bind, Except.bind, pure, Except.pure] at h
    · simp only [hp, hb, bind, Except.bind, Except.error.injEq] at h
      exact .inr ⟨namesReg_of_lt hl, hz, h.symm⟩
  · exact .inl (by simpa [hp, bind, Except.bind] using h)

/-- POP raises what its operand raises, or the bound of SP, read after `x[a]` was written (42_stack.md R76). -/
theorem State.popHandler_error {s : State} {sp : Reg} {a : Byte} {e : Exn} (h : s.popHandler sp a = .error e) :
    ridx a = .error e ∨
      (namesReg a = true ∧ (if a.toNat = sp.val then s.mem.read (s.getReg sp).toNat else s.getReg sp).toNat = 255 ∧
        e = .addressOutOfRange .stackPointer 0x100) := by
  unfold State.popHandler regOperand at h
  rcases ridx_cases a with ⟨hl, hp⟩ | ⟨-, hp⟩
  · rcases (s.setReg ⟨a.toNat, hl⟩ (s.mem.read (s.getReg sp).toNat)).incSP_cases sp with ⟨hz, hb⟩ | ⟨hz, hb⟩
    · simp [hp, hb, bind, Except.bind, pure, Except.pure] at h
    · simp only [hp, hb, State.memRead_effectiveAddr, bind, Except.bind, Except.error.injEq] at h
      rw [State.getReg_setReg] at hz
      exact .inr ⟨namesReg_of_lt hl, by simpa [Fin.ext_iff] using hz, h.symm⟩
  · exact .inl (by simpa [hp, bind, Except.bind] using h)

/-- RET raises the bound of SP (42_stack.md R78). -/
theorem State.retHandler_error {s : State} {sp : Reg} {e : Exn} (h : s.retHandler sp = .error e) :
    (s.getReg sp).toNat = 255 ∧ e = .addressOutOfRange .stackPointer 0x100 := by
  unfold State.retHandler at h
  rcases s.incSP_cases sp with ⟨hz, hb⟩ | ⟨hz, hb⟩
  · simp [hb, bind, Except.bind, pure, Except.pure] at h
  · simp only [hb, State.memRead_effectiveAddr, bind, Except.bind, Except.error.injEq] at h
    exact ⟨hz, h.symm⟩

theorem State.jumpReg_error {s : State} {a : Byte} {e : Exn} (h : s.jumpReg a = .error e) : ridx a = .error e := by
  unfold State.jumpReg regOperand at h
  rcases ridx_cases a with ⟨hl, hp⟩ | ⟨-, hp⟩
  · simp [hp, bind, Except.bind, pure, Except.pure] at h
  · simpa [hp, bind, Except.bind] using h

/-- A conditional jump raises only when it is taken (43_control.md R79, decision D7). -/
theorem State.jumpIf_error {s : State} {c : Bool} {a : Byte} {e : Exn} (h : s.jumpIf c a = .error e) :
    c = true ∧ ridx a = .error e := by
  cases c with
  | true => exact ⟨rfl, State.jumpReg_error h⟩
  | false => cases h

theorem State.print_error {s : State} {kind : Byte → Event} {a : Byte} {e : Exn} (h : s.print kind a = .error e) :
    ridx a = .error e := by
  unfold State.print regOperand at h
  rcases ridx_cases a with ⟨hl, hp⟩ | ⟨-, hp⟩
  · simp [hp, bind, Except.bind, pure, Except.pure] at h
  · simpa [hp, bind, Except.bind] using h

theorem State.ldiHandler_error {s : State} {a imm : Byte} {e : Exn} (h : s.ldiHandler a imm = .error e) :
    ridx a = .error e := by
  unfold State.ldiHandler regOperand at h
  rcases ridx_cases a with ⟨hl, hp⟩ | ⟨-, hp⟩
  · simp [hp, bind, Except.bind, pure, Except.pure] at h
  · simpa [hp, bind, Except.bind] using h

theorem State.ldHandler_error {s : State} {a b : Byte} {e : Exn} (h : s.ldHandler a b = .error e) :
    regPair a b = .error e := by
  unfold State.ldHandler at h
  rcases regPair_cases a b with ⟨i, j, hp, -, -⟩ | ⟨v, -, hp, -⟩
  · simp [hp, bind, Except.bind, pure, Except.pure] at h
  · simpa [hp, bind, Except.bind] using h

theorem State.stHandler_error {s : State} {a b : Byte} {e : Exn} (h : s.stHandler a b = .error e) :
    regPair a b = .error e := by
  unfold State.stHandler at h
  rcases regPair_cases a b with ⟨i, j, hp, -, -⟩ | ⟨v, -, hp, -⟩
  · simp [hp, bind, Except.bind, pure, Except.pure] at h
  · simpa [hp, bind, Except.bind] using h

end Sys2Proof.Machine
end

