-- ==== Sys2Proof/Laws/Exec.lean ====
section
/-! SUPPORT. Once for all instructions and every SP_REG: everything `execWith` can answer, and everything a step can
answer; `exec` and `step` as the case of the model's SP_REG. -/

namespace Sys2Proof.Machine

/-- The completed effect of each instruction on stack pointer `sp`, as the handlers' own lemmas give it. -/
inductive Completed (sp : Reg) (s : State) : Instr → State → Prop where
  | hlt : Completed sp s .hlt s.stop
  | ret : (s.getReg sp).toNat < 255 →
      Completed sp s .ret
        ((s.setReg sp (s.getReg sp + 1)).jumpTo (s.mem.read (s.getReg sp).toNat))
  | push {a : Byte} {i : Reg} : ridx a = .ok i → 1 ≤ (s.getReg sp).toNat →
      Completed sp s (.push a) (((s.setReg sp (s.getReg sp - 1)).setMem
        (s.mem.write (s.getReg sp - 1).toNat
          ((s.setReg sp (s.getReg sp - 1)).getReg i))).advance 2)
  | pop {a : Byte} {i : Reg} {t : State} : ridx a = .ok i →
      t = s.setReg i (s.mem.read (s.getReg sp).toNat) → (t.getReg sp).toNat < 255 →
      Completed sp s (.pop a) ((t.setReg sp (t.getReg sp + 1)).advance 2)
  | prn {a : Byte} {i : Reg} : ridx a = .ok i → Completed sp s (.prn a) ((s.emit (.dec (s.getReg i))).advance 2)
  | pra {a : Byte} {i : Reg} : ridx a = .ok i → Completed sp s (.pra a) ((s.emit (.chr (s.getReg i))).advance 2)
  | call {a : Byte} {i : Reg} : ridx a = .ok i → 1 ≤ (s.getReg sp).toNat →
      Completed sp s (.call a) (((s.setReg sp (s.getReg sp - 1)).setMem
        (s.mem.write (s.getReg sp - 1).toNat (BitVec.ofNat 8 (s.pc + 2)))).jumpTo
          ((s.setReg sp (s.getReg sp - 1)).getReg i))
  | jmp {a : Byte} {i : Reg} : ridx a = .ok i → Completed sp s (.jmp a) (s.jumpTo (s.getReg i))
  | jeqTaken {a : Byte} {i : Reg} : s.fl.e = true → ridx a = .ok i → Completed sp s (.jeq a) (s.jumpTo (s.getReg i))
  | jeqNot {a : Byte} : s.fl.e = false → Completed sp s (.jeq a) (s.advance 2)
  | jneTaken {a : Byte} {i : Reg} : s.fl.e = false → ridx a = .ok i → Completed sp s (.jne a) (s.jumpTo (s.getReg i))
  | jneNot {a : Byte} : s.fl.e = true → Completed sp s (.jne a) (s.advance 2)
  | inc {a : Byte} {i : Reg} : ridx a = .ok i →
      Completed sp s (.inc a) ((s.setReg i (BitVec.ofNat 8 ((s.getReg i).toNat + 1))).advance 2)
  | dec {a : Byte} {i : Reg} : ridx a = .ok i →
      Completed sp s (.dec a) ((s.setReg i (BitVec.ofInt 8 ((s.getReg i).toNat - 1))).advance 2)
  | ldi {a imm : Byte} {i : Reg} : ridx a = .ok i → Completed sp s (.ldi a imm) ((s.setReg i imm).advance 3)
  | ld {a b : Byte} {i j : Reg} : regPair a b = .ok (i, j) →
      Completed sp s (.ld a b) ((s.setReg i (s.mem.read (s.getReg j).toNat)).advance 3)
  | st {a b : Byte} {i j : Reg} : regPair a b = .ok (i, j) →
      Completed sp s (.st a b) ((s.setMem (s.mem.write (s.getReg i).toNat (s.getReg j))).advance 3)
  | add {a b : Byte} {i j : Reg} : regPair a b = .ok (i, j) →
      Completed sp s (.add a b) ((s.setReg i (BitVec.ofNat 8 ((s.getReg i).toNat + (s.getReg j).toNat))).advance 3)
  | mul {a b : Byte} {i j : Reg} : regPair a b = .ok (i, j) →
      Completed sp s (.mul a b) ((s.setReg i (BitVec.ofNat 8 ((s.getReg i).toNat * (s.getReg j).toNat))).advance 3)
  | cmp {a b : Byte} {i j : Reg} : regPair a b = .ok (i, j) →
      Completed sp s (.cmp a b) ((s.setFlags (compareFlags (s.getReg i) (s.getReg j))).advance 3)

/-- Everything `execWith` can do when it answers a next state: the instruction's completed effect, or an exception with one of
its causes, taken in the state before it (00_scope.md R8). -/
theorem execWith_next {sp : Reg} {i : Instr} {s t : State} (h : execWith sp i s = .next t) :
    Completed sp s i t ∨ ∃ m v, Cause sp s i m v ∧ t = s.takeException (.addressOutOfRange m v) := by
  cases i with
  | hlt =>
    rw [execWith, execHlt] at h
    cases h
    exact .inl .hlt
  | ret =>
    rw [execWith] at h
    rcases State.complete_next h with h | ⟨e, he, rfl⟩
    · obtain ⟨hz, rfl⟩ := State.retHandler_ok h
      exact .inl (.ret hz)
    · obtain ⟨hz, rfl⟩ := State.retHandler_error he
      exact .inr ⟨_, _, .ret hz, rfl⟩
  | push a =>
    rw [execWith] at h
    rcases State.complete_next h with h | ⟨e, he, rfl⟩
    · obtain ⟨i, hi, hz, rfl⟩ := State.pushHandler_ok h
      exact .inl (.push hi hz)
    · rcases State.pushHandler_error he with hr | ⟨hn, hz, rfl⟩
      · obtain ⟨m, v, rfl, hc⟩ := cause_of_ridx_error (sp := sp) (s := s) (i := .push a) rfl rfl hr
        exact .inr ⟨_, _, hc, rfl⟩
      · exact .inr ⟨_, _, .push (by rw [State.badOperand?_one rfl rfl, hn]; rfl) hz, rfl⟩
  | pop a =>
    rw [execWith] at h
    rcases State.complete_next h with h | ⟨e, he, rfl⟩
    · obtain ⟨i, u, hi, hu, hz, rfl⟩ := State.popHandler_ok h
      exact .inl (.pop hi hu hz)
    · rcases State.popHandler_error he with hr | ⟨hn, hz, rfl⟩
      · obtain ⟨m, v, rfl, hc⟩ := cause_of_ridx_error (sp := sp) (s := s) (i := .pop a) rfl rfl hr
        exact .inr ⟨_, _, hc, rfl⟩
      · exact .inr ⟨_, _, .pop (by rw [State.badOperand?_one rfl rfl, hn]; rfl) hz, rfl⟩
  | prn a =>
    rw [execWith, execPrn] at h
    rcases State.complete_next h with h | ⟨e, he, rfl⟩
    · obtain ⟨i, hi, rfl⟩ := State.print_ok h
      exact .inl (.prn hi)
    · obtain ⟨m, v, rfl, hc⟩ := cause_of_ridx_error (sp := sp) (s := s) (i := .prn a) rfl rfl (State.print_error he)
      exact .inr ⟨_, _, hc, rfl⟩
  | pra a =>
    rw [execWith, execPra] at h
    rcases State.complete_next h with h | ⟨e, he, rfl⟩
    · obtain ⟨i, hi, rfl⟩ := State.print_ok h
      exact .inl (.pra hi)
    · obtain ⟨m, v, rfl, hc⟩ := cause_of_ridx_error (sp := sp) (s := s) (i := .pra a) rfl rfl (State.print_error he)
      exact .inr ⟨_, _, hc, rfl⟩
  | call a =>
    rw [execWith] at h
    rcases State.complete_next h with h | ⟨e, he, rfl⟩
    · obtain ⟨i, hi, hz, rfl⟩ := State.callHandler_ok h
      exact .inl (.call hi hz)
    · rcases State.callHandler_error he with hr | ⟨hn, hz, rfl⟩
      · obtain ⟨m, v, rfl, hc⟩ := cause_of_ridx_error (sp := sp) (s := s) (i := .call a) rfl rfl hr
        exact .inr ⟨_, _, hc, rfl⟩
      · exact .inr ⟨_, _, .call (by rw [State.badOperand?_one rfl rfl, hn]; rfl) hz, rfl⟩
  | jmp a =>
    rw [execWith, execJmp] at h
    rcases State.complete_next h with h | ⟨e, he, rfl⟩
    · obtain ⟨i, hi, rfl⟩ := State.jumpReg_ok h
      exact .inl (.jmp hi)
    · obtain ⟨m, v, rfl, hc⟩ := cause_of_ridx_error (sp := sp) (s := s) (i := .jmp a) rfl rfl (State.jumpReg_error he)
      exact .inr ⟨_, _, hc, rfl⟩
  | jeq a =>
    rw [execWith, execJeq] at h
    rcases State.complete_next h with h | ⟨e, he, rfl⟩
    · rcases State.jumpIf_ok h with ⟨hc, i, hi, rfl⟩ | ⟨hc, rfl⟩
      · exact .inl (.jeqTaken hc hi)
      · exact .inl (.jeqNot hc)
    · obtain ⟨ht, hr⟩ := State.jumpIf_error he
      obtain ⟨m, v, rfl, hc⟩ := cause_of_ridx_error (sp := sp) (s := s) (i := .jeq a) ht rfl hr
      exact .inr ⟨_, _, hc, rfl⟩
  | jne a =>
    rw [execWith, execJne] at h
    rcases State.complete_next h with h | ⟨e, he, rfl⟩
    · rcases State.jumpIf_ok h with ⟨hc, i, hi, rfl⟩ | ⟨hc, rfl⟩
      · exact .inl (.jneTaken (by simpa [Flags.notEqual] using hc) hi)
      · exact .inl (.jneNot (by simpa [Flags.notEqual] using hc))
    · obtain ⟨ht, hr⟩ := State.jumpIf_error he
      obtain ⟨m, v, rfl, hc⟩ := cause_of_ridx_error (sp := sp) (s := s) (i := .jne a) ht rfl hr
      exact .inr ⟨_, _, hc, rfl⟩
  | inc a =>
    rw [execWith, execInc] at h
    rcases State.complete_next h with h | ⟨e, he, rfl⟩
    · obtain ⟨i, r, hi, hr, rfl⟩ := State.aluSingle_ok h
      cases hr
      exact .inl (.inc hi)
    · obtain ⟨m, v, rfl, hc⟩ := cause_of_ridx_error (sp := sp) (s := s) (i := .inc a) rfl rfl (State.aluSingle_error he fun _ _ => ⟨_, rfl⟩)
      exact .inr ⟨_, _, hc, rfl⟩
  | dec a =>
    rw [execWith, execDec] at h
    rcases State.complete_next h with h | ⟨e, he, rfl⟩
    · obtain ⟨i, r, hi, hr, rfl⟩ := State.aluSingle_ok h
      cases hr
      exact .inl (.dec hi)
    · obtain ⟨m, v, rfl, hc⟩ := cause_of_ridx_error (sp := sp) (s := s) (i := .dec a) rfl rfl (State.aluSingle_error he fun _ _ => ⟨_, rfl⟩)
      exact .inr ⟨_, _, hc, rfl⟩
  | ldi a imm =>
    rw [execWith, execLdi] at h
    rcases State.complete_next h with h | ⟨e, he, rfl⟩
    · obtain ⟨i, hi, rfl⟩ := State.ldiHandler_ok h
      exact .inl (.ldi hi)
    · obtain ⟨m, v, rfl, hc⟩ := cause_of_ridx_error (sp := sp) (s := s) (i := .ldi a imm) rfl rfl (State.ldiHandler_error he)
      exact .inr ⟨_, _, hc, rfl⟩
  | ld a b =>
    rw [execWith, execLd] at h
    rcases State.complete_next h with h | ⟨e, he, rfl⟩
    · obtain ⟨i, j, hp, rfl⟩ := State.ldHandler_ok h
      exact .inl (.ld hp)
    · obtain ⟨m, v, rfl, hc⟩ := cause_of_regPair_error (sp := sp) (s := s) (i := .ld a b) rfl rfl (State.ldHandler_error he)
      exact .inr ⟨_, _, hc, rfl⟩
  | st a b =>
    rw [execWith, execSt] at h
    rcases State.complete_next h with h | ⟨e, he, rfl⟩
    · obtain ⟨i, j, hp, rfl⟩ := State.stHandler_ok h
      exact .inl (.st hp)
    · obtain ⟨m, v, rfl, hc⟩ := cause_of_regPair_error (sp := sp) (s := s) (i := .st a b) rfl rfl (State.stHandler_error he)
      exact .inr ⟨_, _, hc, rfl⟩
  | add a b =>
    rw [execWith, execAdd] at h
    rcases State.complete_next h with h | ⟨e, he, rfl⟩
    · obtain ⟨i, j, r, hp, hr, rfl⟩ := State.aluPair_ok h
      cases hr
      exact .inl (.add hp)
    · obtain ⟨m, v, rfl, hc⟩ := cause_of_regPair_error (sp := sp) (s := s) (i := .add a b) rfl rfl (State.aluPair_error he fun _ _ => ⟨_, rfl⟩)
      exact .inr ⟨_, _, hc, rfl⟩
  | mul a b =>
    rw [execWith, execMul] at h
    rcases State.complete_next h with h | ⟨e, he, rfl⟩
    · obtain ⟨i, j, r, hp, hr, rfl⟩ := State.aluPair_ok h
      cases hr
      exact .inl (.mul hp)
    · obtain ⟨m, v, rfl, hc⟩ := cause_of_regPair_error (sp := sp) (s := s) (i := .mul a b) rfl rfl (State.aluPair_error he fun _ _ => ⟨_, rfl⟩)
      exact .inr ⟨_, _, hc, rfl⟩
  | cmp a b =>
    rw [execWith, execCmp] at h
    rcases State.complete_next h with h | ⟨e, he, rfl⟩
    · obtain ⟨i, j, r, hp, hr, rfl⟩ := State.aluPair_ok h
      cases hr
      exact .inl (.cmp hp)
    · obtain ⟨m, v, rfl, hc⟩ := cause_of_regPair_error (sp := sp) (s := s) (i := .cmp a b) rfl rfl (State.aluPair_error he fun _ _ => ⟨_, rfl⟩)
      exact .inr ⟨_, _, hc, rfl⟩

/-- The host's dispatch is the case of the model's SP_REG (00_scope.md R5). -/
theorem exec_eq_execWith (i : Instr) (s : State) : exec i s = execWith Config.spReg i s := by
  cases i <;> rfl

theorem step_eq_stepWith (s : State) : step s = stepWith Config.spReg s := by
  rw [step, stepWith, funext fun i => funext (exec_eq_execWith i)]

/-- `execWith_next` at the model's SP_REG. -/
theorem exec_next {i : Instr} {s t : State} (h : exec i s = .next t) :
    Completed Config.spReg s i t ∨
      ∃ m v, Cause Config.spReg s i m v ∧ t = s.takeException (.addressOutOfRange m v) :=
  execWith_next (exec_eq_execWith i s ▸ h)

/-- Every handler answers a next state: what it computed, or its exception taken. -/
theorem State.complete_total (s : State) (r : Except Exn State) : ∃ t, s.complete r = .next t := by
  cases r with
  | ok t => exact ⟨t, rfl⟩
  | error e => exact ⟨_, rfl⟩

/-- No instruction is refused and none stops without a next state. -/
theorem execWith_total (sp : Reg) (i : Instr) (s : State) : ∃ t, execWith sp i s = .next t := by
  cases i with
  | hlt => exact s.complete_total (.ok s.stop)
  | ret => exact s.complete_total (s.retHandler sp)
  | push a => exact s.complete_total (s.pushHandler sp a)
  | pop a => exact s.complete_total (s.popHandler sp a)
  | prn a => exact s.complete_total (s.print .dec a)
  | pra a => exact s.complete_total (s.print .chr a)
  | call a => exact s.complete_total (s.callHandler sp a)
  | jmp a => exact s.complete_total (s.jumpReg a)
  | jeq a => exact s.complete_total (s.jumpIf s.fl.equal a)
  | jne a => exact s.complete_total (s.jumpIf s.fl.notEqual a)
  | inc a => exact s.complete_total (s.aluSingle .inc a)
  | dec a => exact s.complete_total (s.aluSingle .dec a)
  | ldi a imm => exact s.complete_total (s.ldiHandler a imm)
  | ld a b => exact s.complete_total (s.ldHandler a b)
  | st a b => exact s.complete_total (s.stHandler a b)
  | add a b => exact s.complete_total (s.aluPair .add a b)
  | mul a b => exact s.complete_total (s.aluPair .mul a b)
  | cmp a b => exact s.complete_total (s.aluPair .cmp a b)

theorem exec_total (i : Instr) (s : State) : ∃ t, exec i s = .next t :=
  exec_eq_execWith i s ▸ execWith_total Config.spReg i s

theorem State.noStep_eq_none {s : State} : s.noStep = none ↔ s.running = true := by
  unfold State.noStep
  cases s.running <;> cases s.fault <;> simp

/-- The fetch in terms of `pc` as a natural number (40_engine.md R59, R60). -/
theorem State.fetch_eq (s : State) :
    s.fetch =
      if s.pc + 2 < 256 then .ok ⟨s.mem.read s.pc, s.mem.read (s.pc + 1), s.mem.read (s.pc + 2)⟩
      else .error (.addressOutOfRange .memory (max s.pc 256 : Nat)) := by
  unfold State.fetch
  rw [State.memRead_natCast, show ((s.pc : Int) + 1) = ((s.pc + 1 : Nat) : Int) by simp, State.memRead_natCast,
    show ((s.pc : Int) + 2) = ((s.pc + 2 : Nat) : Int) by simp, State.memRead_natCast]
  by_cases h2 : s.pc + 2 < 256
  · simp only [if_pos h2, if_pos (show s.pc < 256 by omega), if_pos (show s.pc + 1 < 256 by omega), bind, Except.bind,
      pure, Except.pure]
  · by_cases h1 : s.pc + 1 < 256
    · simp only [if_neg h2, if_pos (show s.pc < 256 by omega), if_pos h1, bind, Except.bind,
        show max s.pc 256 = s.pc + 2 by omega]
    · by_cases h0 : s.pc < 256
      · simp only [if_neg h2, if_neg h1, if_pos h0, bind, Except.bind, show max s.pc 256 = s.pc + 1 by omega]
      · simp only [if_neg h2, if_neg h0, bind, Except.bind, show max s.pc 256 = s.pc by omega]

/-- Everything fetch and decode can answer as an instruction: the three bytes at `pc` are in memory and decode to it. -/
theorem State.fetchDecode_ok {s : State} {i : Instr} (h : s.fetchDecode = .ok i) :
    s.pc ≤ 0xFD ∧ decode ⟨s.mem.read s.pc, s.mem.read (s.pc + 1), s.mem.read (s.pc + 2)⟩ = .ok i := by
  unfold State.fetchDecode at h
  rw [State.fetch_eq] at h
  split at h
  · next hp =>
    simp only [bind, Except.bind, decodeLatch] at h
    split at h
    · next j hd =>
      cases h
      exact ⟨by omega, hd⟩
    · cases h
  · simp only [bind, Except.bind, reduceCtorEq] at h

/-- Everything fetch and decode can raise: the fetch fault, or UndefinedOpcode for bytes that do not decode. -/
theorem State.fetchDecode_error {s : State} {e : Exn} (h : s.fetchDecode = .error e) :
    (0xFD < s.pc ∧ e = .addressOutOfRange .memory (max s.pc 256 : Nat)) ∨
      (s.pc ≤ 0xFD ∧ e = .undefinedOpcode ∧
        ∃ op, decode ⟨s.mem.read s.pc, s.mem.read (s.pc + 1), s.mem.read (s.pc + 2)⟩ = .error (.undefinedOpcode op)) := by
  unfold State.fetchDecode at h
  rw [State.fetch_eq] at h
  split at h
  · next hp =>
    simp only [bind, Except.bind, decodeLatch] at h
    split at h
    · cases h
    · next op hd =>
      cases h
      exact .inr ⟨by omega, rfl, op, hd⟩
  · next hp =>
    simp only [bind, Except.bind, Except.error.injEq] at h
    exact .inl ⟨by omega, h.symm⟩

/-- A step of a running core (40_engine.md R58). -/
theorem stepBy_of_running {run : Instr → State → Answer} {s : State} (h : s.running = true) :
    stepBy run s = match s.fetchDecode with
      | .error e => .next (s.takeException e)
      | .ok i => run i s := by
  cases hf : s.fetchDecode <;> simp only [stepBy, State.noStep_eq_none.mpr h, hf]

theorem step_of_running {s : State} (h : s.running = true) :
    step s = match s.fetchDecode with
      | .error e => .next (s.takeException e)
      | .ok i => exec i s := by
  cases hf : s.fetchDecode <;> simp only [step, stepBy_of_running h, hf]

/-- A completed instruction leaves the fault record alone: only a taken exception writes it (60_exceptions.md R93). -/
theorem Completed.fault_eq {sp : Reg} {i : Instr} {s t : State} (h : Completed sp s i t) : t.fault = s.fault := by
  cases h with
  | pop _ hu _ => subst hu; rfl
  | _ => rfl

/-- Everything a step can do when it answers a next state: an exception of the fetch or the decode, or what the handler
does with the decoded instruction (40_engine.md R58). -/
theorem stepBy_next {run : Instr → State → Answer} {s t : State} (h : stepBy run s = .next t) :
    s.running = true ∧
      ((∃ e, s.fetchDecode = .error e ∧ t = s.takeException e) ∨ ∃ i, s.fetchDecode = .ok i ∧ run i s = .next t) := by
  unfold stepBy at h
  cases hn : s.noStep with
  | some f => simp [hn] at h
  | none =>
    refine ⟨State.noStep_eq_none.mp hn, ?_⟩
    cases hf : s.fetchDecode with
    | error e =>
      simp only [hn, hf] at h
      cases h
      exact .inl ⟨e, rfl, rfl⟩
    | ok i =>
      simp only [hn, hf] at h
      exact .inr ⟨i, rfl, h⟩

theorem step_next {s t : State} (h : step s = .next t) :
    s.running = true ∧
      ((∃ e, s.fetchDecode = .error e ∧ t = s.takeException e) ∨ ∃ i, s.fetchDecode = .ok i ∧ exec i s = .next t) :=
  stepBy_next h

/-- A stopped core's run has ended, whatever the fuel (40_engine.md R65). -/
theorem runBy_of_stopped {st : State → Answer} {s : State} (h : s.running = false) (fuel : Nat) :
    runBy st fuel s = some s := by
  cases fuel <;> simp [runBy, h]

theorem runBy_zero_of_running {st : State → Answer} {s : State} (h : s.running = true) : runBy st 0 s = none := by
  simp [runBy, h]

theorem runBy_of_next {st : State → Answer} {s t : State} (hr : s.running = true) (h : st s = .next t) (n : Nat) :
    runBy st (n + 1) s = runBy st n t := by
  simp [runBy, hr, h]

/-- Everything a run that ends can do: it had ended, or it took a step and the rest ends. -/
theorem runBy_some {st : State → Answer} {s t : State} {fuel : Nat} (h : runBy st fuel s = some t) :
    (s.running = false ∧ t = s) ∨
      ∃ n u, fuel = n + 1 ∧ s.running = true ∧ st s = .next u ∧ runBy st n u = some t := by
  cases hr : s.running with
  | false =>
    rw [runBy_of_stopped hr] at h
    exact .inl ⟨rfl, (Option.some.inj h).symm⟩
  | true =>
    cases fuel with
    | zero => simp [runBy_zero_of_running hr] at h
    | succ n =>
      cases hs : st s with
      | next u => exact .inr ⟨n, u, rfl, rfl, rfl, runBy_of_next hr hs n ▸ h⟩
      | fault f => simp [runBy, hr, hs] at h
      | refused r => simp [runBy, hr, hs] at h

end Sys2Proof.Machine
end

