-- ==== Sys2Proof/Laws/PerInstr.lean ====
section
/-! SUPPORT. Per instruction: the facts of its encoding as syntax (30_encoding.md R45, R52). -/

namespace Sys2Proof.Laws.EncodedLength

/-- The encoding of `i` has as many bytes as its length says, starts with its opcode, and ends with the operands it uses,
among which are all its register operands. -/
def Statement (i : Instr) : Prop :=
  (encode i).length = i.length ∧ (encode i).head? = some i.opcode ∧ (encode i).tail = i.operandBytes ∧
    i.regOperands <+: i.operandBytes

theorem hlt : Statement .hlt := by simp [Statement, encode, Instr.length, Instr.opcode, Instr.operandBytes, Instr.regOperands]

theorem ret : Statement .ret := by simp [Statement, encode, Instr.length, Instr.opcode, Instr.operandBytes, Instr.regOperands]

theorem push (a : Byte) : Statement (.push a) := by simp [Statement, encode, Instr.length, Instr.opcode, Instr.operandBytes, Instr.regOperands]

theorem pop (a : Byte) : Statement (.pop a) := by simp [Statement, encode, Instr.length, Instr.opcode, Instr.operandBytes, Instr.regOperands]

theorem prn (a : Byte) : Statement (.prn a) := by simp [Statement, encode, Instr.length, Instr.opcode, Instr.operandBytes, Instr.regOperands]

theorem pra (a : Byte) : Statement (.pra a) := by simp [Statement, encode, Instr.length, Instr.opcode, Instr.operandBytes, Instr.regOperands]

theorem call (a : Byte) : Statement (.call a) := by simp [Statement, encode, Instr.length, Instr.opcode, Instr.operandBytes, Instr.regOperands]

theorem jmp (a : Byte) : Statement (.jmp a) := by simp [Statement, encode, Instr.length, Instr.opcode, Instr.operandBytes, Instr.regOperands]

theorem jeq (a : Byte) : Statement (.jeq a) := by simp [Statement, encode, Instr.length, Instr.opcode, Instr.operandBytes, Instr.regOperands]

theorem jne (a : Byte) : Statement (.jne a) := by simp [Statement, encode, Instr.length, Instr.opcode, Instr.operandBytes, Instr.regOperands]

theorem inc (a : Byte) : Statement (.inc a) := by simp [Statement, encode, Instr.length, Instr.opcode, Instr.operandBytes, Instr.regOperands]

theorem dec (a : Byte) : Statement (.dec a) := by simp [Statement, encode, Instr.length, Instr.opcode, Instr.operandBytes, Instr.regOperands]

theorem ldi (a imm : Byte) : Statement (.ldi a imm) := by simp [Statement, encode, Instr.length, Instr.opcode, Instr.operandBytes, Instr.regOperands]

theorem ld (a b : Byte) : Statement (.ld a b) := by simp [Statement, encode, Instr.length, Instr.opcode, Instr.operandBytes, Instr.regOperands]

theorem st (a b : Byte) : Statement (.st a b) := by simp [Statement, encode, Instr.length, Instr.opcode, Instr.operandBytes, Instr.regOperands]

theorem add (a b : Byte) : Statement (.add a b) := by simp [Statement, encode, Instr.length, Instr.opcode, Instr.operandBytes, Instr.regOperands]

theorem mul (a b : Byte) : Statement (.mul a b) := by simp [Statement, encode, Instr.length, Instr.opcode, Instr.operandBytes, Instr.regOperands]

theorem cmp (a b : Byte) : Statement (.cmp a b) := by simp [Statement, encode, Instr.length, Instr.opcode, Instr.operandBytes, Instr.regOperands]

end Sys2Proof.Laws.EncodedLength
end

