-- ==== Sys2Proof/Tests/Slice0.lean ====
section
/-! SUPPORT. Tests of one step each, with expected results from 95_test_vectors.md and the rules' own examples, and for every
statement with hypotheses a state that meets them. -/

namespace Sys2Proof.Machine

/-- The next state of an answer. -/
def nextOf : Answer → Option State
  | .next t => some t
  | .fault _ => none
  | .refused _ => none

theorem eq_next_of_nextOf {o : Answer} {t : State} (h : nextOf o = some t) : o = .next t := by
  cases o <;> simp_all [nextOf]

/-- The reset state with some registers, in vectors such as `x[0] = 200, x[1] = 100`. -/
def withRegs (rs : List (Reg × Byte)) : State := rs.foldl (fun s r => s.setReg r.1 r.2) State.reset

/-- A state with bytes stored from address `a` on, and `pc` at `p`. -/
def State.at (s : State) (p a : Nat) (bs : List Byte) : State := (s.setMem (s.mem.writeBytes a bs)).setPc p

/-- The state after a step, or the same state where there is none. -/
def after (s : State) : State := (nextOf (step s)).getD s

/-- The state after an instruction. -/
def afterExec (i : Instr) (s : State) : State := (nextOf (exec i s)).getD s

/-- The record of an AddressOutOfRange, in the columns of 60_exceptions.md R93. -/
def outOfRange (pc : Nat) (op : Option Byte) (space : Space) (value : Int) : Option FaultRecord :=
  some { code := 2, name := .addressOutOfRange, pc := pc, op := op, space := some space, value := some value, tag := none }

/-- The record of an UndefinedOpcode, in the columns of R93. -/
def undefinedAt (pc : Nat) (op : Byte) : Option FaultRecord :=
  some { code := 1, name := .undefinedOpcode, pc := pc, op := some op, space := none, value := none, tag := none }

/-! ## Well-formedness: one ill-formed term for each register operand checked, and an immediate that is not checked -/

theorem test_wellFormed_refuses_operand_a_F2R : (Instr.push 8).wellFormed = false := by decide
theorem test_wellFormed_refuses_operand_a_F3RI : (Instr.ldi 8 0).wellFormed = false := by decide
theorem test_wellFormed_refuses_operand_a_F3RR : (Instr.add 255 0).wellFormed = false := by decide
theorem test_wellFormed_refuses_operand_b_F3RR : (Instr.st 0 8).wellFormed = false := by decide
theorem test_wellFormed_takes_any_immediate : (Instr.ldi 7 255).wellFormed = true := by decide

/-! ## Decoding: opcode bytes written out bit by bit from 30_encoding.md R50 -/

theorem test_decode_hlt : decode ⟨0b00000001, 0xFF, 0xFF⟩ = .ok .hlt := by rfl
theorem test_decode_ret : decode ⟨0b00010001, 0, 0⟩ = .ok .ret := by rfl
theorem test_decode_push : decode ⟨0b01000101, 0, 0x46⟩ = .ok (.push 0) := by rfl
theorem test_decode_pop : decode ⟨0b01000110, 1, 0⟩ = .ok (.pop 1) := by rfl
theorem test_decode_prn : decode ⟨0b01000111, 0, 1⟩ = .ok (.prn 0) := by rfl
theorem test_decode_pra : decode ⟨0b01001000, 1, 0⟩ = .ok (.pra 1) := by rfl
theorem test_decode_call : decode ⟨0b01010000, 1, 0⟩ = .ok (.call 1) := by rfl
theorem test_decode_jmp : decode ⟨0b01010100, 2, 0⟩ = .ok (.jmp 2) := by rfl
theorem test_decode_jeq : decode ⟨0b01010101, 2, 0⟩ = .ok (.jeq 2) := by rfl
theorem test_decode_jne : decode ⟨0b01010110, 2, 0⟩ = .ok (.jne 2) := by rfl
theorem test_decode_inc : decode ⟨0b01100101, 2, 0⟩ = .ok (.inc 2) := by rfl
theorem test_decode_dec : decode ⟨0b01100110, 0, 0⟩ = .ok (.dec 0) := by rfl
theorem test_decode_ldi : decode ⟨0b10000010, 0, 0b00001000⟩ = .ok (.ldi 0 8) := by rfl
theorem test_decode_ld : decode ⟨0b10000011, 3, 2⟩ = .ok (.ld 3 2) := by rfl
theorem test_decode_st : decode ⟨0b10000100, 2, 0⟩ = .ok (.st 2 0) := by rfl
theorem test_decode_add : decode ⟨0b10100000, 0, 1⟩ = .ok (.add 0 1) := by rfl
theorem test_decode_mul : decode ⟨0b10100010, 0, 1⟩ = .ok (.mul 0 1) := by rfl
theorem test_decode_cmp : decode ⟨0b10100111, 0, 1⟩ = .ok (.cmp 0 1) := by rfl
/-- E6: 0xA1 fits the pattern of R51 and is no opcode. -/
theorem test_decode_pattern_only : decode ⟨0xA1, 0, 1⟩ = .error (.undefinedOpcode 0xA1) := by rfl
theorem test_encode_st : encode (.st 2 0) = [0x84, 0x02, 0x00] := by rfl

/-! ## ALU (vectors A) -/

/-- A1. -/
theorem test_add_wraps : (afterExec (.add 0 1) (withRegs [(0, 200), (1, 100)])).getReg 0 = 44 := by decide
/-- A22: the stack pointer is an ordinary operand. -/
theorem test_add_stack_pointer : (afterExec (.add 1 7) (withRegs [(1, 0x10)])).getReg 1 = 0x04 := by decide
/-- A6. -/
theorem test_mul_low_byte : (afterExec (.mul 0 1) (withRegs [(0, 255), (1, 255)])).getReg 0 = 1 := by decide
/-- A8. -/
theorem test_inc_wraps : (afterExec (.inc 3) (withRegs [(3, 255)])).getReg 3 = 0 := by decide
/-- A11: an ALU instruction wraps the stack pointer. -/
theorem test_dec_wraps_stack_pointer : (afterExec (.dec 7) (withRegs [(7, 0)])).getReg 7 = 0xFF := by decide
/-- A17: unsigned, 128 > 127. -/
theorem test_cmp_unsigned : (afterExec (.cmp 0 1) (withRegs [(0, 0x80), (1, 0x7F)])).fl = ⟨false, false, true⟩ := by
  decide
/-- A12. -/
theorem test_cmp_less : (afterExec (.cmp 0 1) (withRegs [(0, 3), (1, 5)])).fl = ⟨false, true, false⟩ := by decide
/-- A19: A is checked before B. -/
theorem test_add_checks_a_first :
    (after (State.reset.at 0 0 [0xA0, 0x09, 0x08])).fault = outOfRange 0 (some 0xA0) .register 9 := by
  decide
/-- A20: an unused byte is never checked. -/
theorem test_inc_ignores_byte_b : (after (State.reset.at 0 0 [0x65, 0x00, 0xFF])).getReg 0 = 1 := by decide

/-! ## Stack (vectors K) -/

/-- K1. -/
theorem test_push_stores :
    let t := afterExec (.push 0) (withRegs [(0, 5)])
    t.getReg 7 = 0xF3 ∧ t.mem.read 0xF3 = 5 ∧ t.pc = 2 := by decide
/-- K7: PUSH of the stack pointer stores the decremented one. -/
theorem test_push_stack_pointer : (afterExec (.push 7) State.reset).mem.read 0xF3 = 0xF3 := by decide
/-- K3 with K16's order: the stack bound. -/
theorem test_push_at_zero :
    (after ((withRegs [(7, 0)]).at 0 0 [0x45, 0x00])).fault = outOfRange 0 (some 0x45) .memory (-1) := by
  decide
/-- K16: the register check comes before the stack bound. -/
theorem test_push_checks_register_first :
    (after ((withRegs [(7, 0)]).at 0 0 [0x45, 0x08])).fault = outOfRange 0 (some 0x45) .register 8 := by
  decide
/-- K8: POP of the stack pointer. -/
theorem test_pop_stack_pointer : (afterExec (.pop 7) (State.reset.at 0 0xF4 [0x20])).getReg 7 = 0x21 := by decide
/-- K6, with `x[0]` unchanged. -/
theorem test_pop_at_top :
    let t := afterExec (.pop 0) (withRegs [(0, 9), (7, 0xFF)])
    t.getReg 0 = 9 ∧ t.fault = outOfRange 0 (some 0) .stackPointer 0x100 := by decide
/-- K10. -/
theorem test_call_pushes_return_address :
    let t := afterExec (.call 1) ((withRegs [(1, 0x10)]).setPc 6)
    t.mem.read 0xF3 = 0x08 ∧ t.getReg 7 = 0xF3 ∧ t.pc = 0x10 := by decide
/-- K14: CALL of the stack pointer jumps to the decremented one. -/
theorem test_call_stack_pointer : (afterExec (.call 7) (State.reset.setPc 0x20)).pc = 0xF3 := by decide
/-- K11. -/
theorem test_ret_pops_pc :
    let t := afterExec .ret ((withRegs [(7, 0xF3)]).at 0 0xF3 [0x08])
    t.pc = 0x08 ∧ t.getReg 7 = 0xF4 := by decide
/-- K13. -/
theorem test_ret_at_top :
    (afterExec .ret (withRegs [(7, 0xFF)])).fault = outOfRange 0 (some 0) .stackPointer 0x100 := by decide

/-! ## Control (vectors J) -/

/-- J9: a target of 0xFE is taken without a fault. -/
theorem test_jmp_to_top : (afterExec (.jmp 2) (withRegs [(2, 0xFE)])).pc = 0xFE := by decide
/-- J2. -/
theorem test_jeq_taken : (afterExec (.jeq 2) ((withRegs [(2, 0x12)]).setFlags ⟨true, false, false⟩)).pc = 0x12 := by
  decide
/-- J5: not taken, the operand is not checked. -/
theorem test_jeq_not_taken_unchecked :
    let t := afterExec (.jeq 8) (State.reset.setFlags ⟨false, true, false⟩)
    t.pc = 2 ∧ t.fault = none := by decide
/-- J4. -/
theorem test_jne_taken : (afterExec (.jne 2) ((withRegs [(2, 9)]).setFlags ⟨false, false, true⟩)).pc = 9 := by decide
/-- J7. -/
theorem test_jne_not_taken : (afterExec (.jne 2) ((withRegs [(2, 9)]).setFlags ⟨true, false, false⟩)).pc = 2 := by
  decide

/-! ## Data movement and I/O (vectors M) -/

/-- M2. -/
theorem test_ldi_stack_pointer : (afterExec (.ldi 7 0x80) State.reset).getReg 7 = 0x80 := by decide
/-- M5: the same register as address and destination. -/
theorem test_ld_same_register : (afterExec (.ld 2 2) ((withRegs [(2, 0x40)]).at 0 0x40 [0x99])).getReg 2 = 0x99 := by
  decide
/-- M6: operand A is the address, operand B the value. -/
theorem test_st_operand_order : (afterExec (.st 2 0) (withRegs [(2, 0x80), (0, 10)])).mem.read 0x80 = 10 := by decide
/-- M8: a store into its own operand byte uses the operands fetched before. -/
theorem test_st_into_own_operand :
    let t := after ((withRegs [(1, 1), (0, 7)]).at 0 0 [0x84, 0x01, 0x00])
    t.mem.read 1 = 7 ∧ t.pc = 3 := by decide
/-- M9. -/
theorem test_prn_emits : (afterExec (.prn 0) (withRegs [(0, 255)])).out = [.dec 255] := by decide
/-- M13, and the order of two events. -/
theorem test_pra_appends :
    (afterExec (.pra 0) ((withRegs [(0, 0xC8)]).emit (.dec 3))).out = [.dec 3, .chr 0xC8] := by decide
/-- M12. -/
theorem test_hlt_keeps_pc :
    let t := after (State.reset.at 5 5 [0x01])
    t.pc = 5 ∧ t.running = false ∧ t.status = .halted := by decide
/-- R87, R88: the text of an event. -/
theorem test_event_shown : Event.shown (.dec 255) = "255" ∧ Event.shown (.chr 72) = "H" := by decide

/-! ## Engine (vectors E, S4) -/

/-- E1: HLT at 0xFE never executes. -/
theorem test_fetch_fault_at_fe :
    (after (State.reset.at 0xFE 0xFE [0x01])).fault = outOfRange 0xFE (some 0x01) .memory 0x100 := by
  decide
/-- E3, its second step: no byte at 0x100. -/
theorem test_fetch_fault_at_100 :
    (after (State.reset.setPc 0x100)).fault = outOfRange 0x100 none .memory 0x100 := by decide
/-- E3, its first step: an instruction at 0xFD advances to 0x100. -/
theorem test_last_instruction_address : (after (State.reset.at 0xFD 0xFD [0x82, 0x00, 0x05])).pc = 0x100 := by decide
/-- S4. -/
theorem test_undefined_opcode :
    (after (State.reset.at 0 0 [0xFF])).fault = undefinedAt 0 0xFF := by decide
/-- E11: a Halted core has no step. -/
theorem test_no_step_when_halted : step State.reset.stop = .fault .halted := by rfl
/-- E9: the empty image. -/
theorem test_empty_image : (after (State.reset.loadImage [])).fault = undefinedAt 0 0x00 := by decide
/-- The bytes of S1's first instruction, placed as the opcode table numbers bits, are what the next step runs. -/
theorem test_withFetchWord : (after (State.reset.withFetchWord 24 0x080082)).getReg 0 = 8 := by decide
/-- R30, R106: load and read back, in canonical form. -/
theorem test_load_is_canonical :
    let s := State.reset.loadImage [0x82, 0x00, 0x08]
    s.mem = [(0, 0x82), (2, 0x08)] ∧ s.mem.wf = true := by decide
/-- Memory.wf refuses an entry that reads as an unlisted one, a repeated address and an address out of range. -/
theorem test_wf_refuses :
    Memory.wf [(3, 0)] = false ∧ Memory.wf [(3, 1), (3, 2)] = false ∧ Memory.wf [(256, 1)] = false := by decide
/-- R33, R34: the order of accesses of a ST at 0. -/
theorem test_store_accesses :
    stepAccesses ((withRegs [(1, 9), (0, 7)]).at 0 0 [0x84, 0x01, 0x00]) =
      [.read 0, .read 1, .read 2, .write 9 7] := by decide

/-! ## Witnesses: for every statement with hypotheses, inputs that meet them, at the boundaries of each clause -/

theorem step_after {s : State} (h : (nextOf (step s)).isSome = true) : step s = .next (after s) := by
  obtain ⟨t, ht⟩ := Option.isSome_iff_exists.mp h
  exact eq_next_of_nextOf (by simp [after, ht])

theorem exec_after {i : Instr} {s : State} (h : (nextOf (exec i s)).isSome = true) : exec i s = .next (afterExec i s) := by
  obtain ⟨t, ht⟩ := Option.isSome_iff_exists.mp h
  exact eq_next_of_nextOf (by simp [afterExec, ht])

/-- A state that already holds a record of an operand out of range. -/
def State.marked (s : State) : State := s.takeException (.addressOutOfRange .register 8)

theorem witness_EncodeOfDecodeIsPrefix :
    decode ⟨0x01, 7, 9⟩ = .ok .hlt ∧ decode ⟨0x48, 255, 9⟩ = .ok (.pra 255) ∧ decode ⟨0xA7, 0, 255⟩ = .ok (.cmp 0 255) :=
  ⟨rfl, rfl, rfl⟩

theorem witness_OpcodeByteAloneSelects :
    decode ⟨0xA2, 0, 1⟩ = .ok (.mul 0 1) ∧ (0xA2 : Byte) ∈ legalOpcodes ∧ (0xA1 : Byte) ∉ legalOpcodes ∧
      (0x00 : Byte) ∉ legalOpcodes := ⟨rfl, by decide, by decide, by decide⟩

theorem witness_UnusedOperandBytesAreIgnored :
    (decode ⟨0x11, 1, 2⟩ = .ok .ret ∧ Instr.ret.length = 1) ∧
      decode ⟨0x45, 7, 255⟩ = .ok (.push 7) ∧ (Instr.push 7).length = 2 := ⟨⟨rfl, rfl⟩, rfl, rfl⟩

theorem witness_OpcodeBitsCountOperandsAndMarkGroups :
    (Instr.ldi 1 2).opcode = (Instr.ldi 1 2).opcode ∧ (Instr.ldi 1 2).operandBytes = [1, 2] := ⟨rfl, rfl⟩

theorem witness_NoStepUnlessRunning :
    step State.reset = .next (after State.reset) ∧
      (State.reset.stop.running = false ∧ State.reset.stop.fault = none) ∧
      State.reset.marked.running = false ∧ State.reset.marked.fault = outOfRange 0 (some 0) .register 8 :=
  ⟨step_after (by decide), ⟨rfl, rfl⟩, rfl, by decide⟩

theorem witness_StepReadsThreeBytesFirst :
    (State.reset.setPc 0xFD).running = true ∧ (State.reset.setPc 0xFD).pc ≤ 0xFD ∧
      (State.reset.setPc 0xFE).running = true ∧ 0xFD < (State.reset.setPc 0xFE).pc := by decide

theorem witness_FetchAboveFdFaults :
    State.reset.running = true ∧ ∀ p ∈ [0xFE, 0xFF, 0x100], 0xFD < (State.reset.setPc p).pc ∧ (State.reset.setPc p).pc ≤ 0x100 := by
  decide

theorem witness_UndefinedOpcodeIsRecorded :
    let s := State.reset.at 0xFD 0xFD [0xFF]
    s.running = true ∧ s.pc ≤ 0xFD ∧ s.mem.read s.pc ∉ legalOpcodes := by decide

theorem witness_StepRunsDecodedInstruction :
    let s := State.reset.at 0xFD 0xFD [0xA0, 9, 7]
    s.running = true ∧ s.pc ≤ 0xFD ∧
      decode ⟨s.mem.read s.pc, s.mem.read (s.pc + 1), s.mem.read (s.pc + 2)⟩ = .ok (.add 9 7) := ⟨rfl, by decide, rfl⟩

theorem witness_RunningStateAlwaysSteps : State.reset.running = true ∧ (State.reset.setPc 1000).running = true := by decide

theorem witness_ExceptionsArePrecise :
    let s := State.reset.at 0x20 0x20 [0x45, 8]
    step s = .next (after s) ∧ (after s).fault ≠ s.fault := ⟨step_after (by decide), by decide⟩

/-- One input for each of the three causes, the third with a stack bound; then a cause of each kind that `Cause` lists. -/
theorem witness_FaultsHaveOnlyListedCauses :
    let s := State.reset.at 0 0 [0xA1]
    let u := State.reset.setPc 0x100
    let v := (withRegs [(7, 255)]).at 0 0 [0x11]
    let w := State.reset.at 0xFD 0xFD [0xA0, 7, 8]
    (s.pc ≤ 0x100 ∧ s.fault = none ∧ step s = .next (after s) ∧ (after s).fault = undefinedAt 0 0xA1) ∧
    (u.pc ≤ 0x100 ∧ u.fault = none ∧ step u = .next (after u) ∧ (after u).fault = outOfRange 0x100 none .memory 0x100) ∧
    (v.pc ≤ 0x100 ∧ v.fault = none ∧ step v = .next (after v) ∧
      (after v).fault = outOfRange 0 (some 0x11) .stackPointer 0x100) ∧
    w.running = true ∧ w.pc ≤ 0xFD ∧
      decode ⟨w.mem.read w.pc, w.mem.read (w.pc + 1), w.mem.read (w.pc + 2)⟩ = .ok (.add 7 8) ∧
      Cause Config.spReg w (.add 7 8) .register 8 :=
  ⟨⟨by decide, rfl, step_after (by decide), by decide⟩, ⟨by decide, rfl, step_after (by decide), by decide⟩,
    ⟨by decide, rfl, step_after (by decide), by decide⟩, rfl, by decide, rfl, .operand (v := 8) rfl⟩

/-- R92: a conditional jump that is not taken does not use its operand; A is looked at before B. -/
theorem test_badOperand :
    (State.reset.setFlags ⟨false, true, false⟩).badOperand? (.jeq 8) = none ∧
      (State.reset.setFlags ⟨true, false, false⟩).badOperand? (.jeq 8) = some 8 ∧
      (State.reset.setFlags ⟨true, false, false⟩).badOperand? (.jne 8) = none ∧
      State.reset.badOperand? (.ldi 7 8) = none ∧ State.reset.badOperand? (.add 9 8) = some 9 := by decide

/-- The four stack causes at their bounds. -/
theorem test_stack_causes :
    Cause 7 (withRegs [(7, 0)]) (.push 7) .memory (-1) ∧ Cause 7 (withRegs [(7, 0)]) (.call 0) .memory (-1) ∧
      Cause 7 (State.reset.at 0 0xF4 [0xFF]) (.pop 7) .stackPointer 0x100 ∧
      Cause 7 (withRegs [(7, 255)]) (.pop 0) .stackPointer 0x100 ∧ Cause 7 (withRegs [(7, 255)]) .ret .stackPointer 0x100 :=
  ⟨.push rfl (by decide), .call rfl (by decide), .pop rfl (by decide), .pop rfl (by decide), .ret (by decide)⟩

/-- The only records of this name are those already there: a state that no run reaches, a running core with such a record. -/
theorem witness_UnsupportedAluOperationIsNeverRaised :
    let s := { State.reset.takeException (.unsupportedALUOperation 5) with running := true, mem := [(0, 1)] }
    ∃ r, step s = .next (after s) ∧ (after s).fault = some r ∧ r.name = .unsupportedALUOperation :=
  ⟨_, step_after (by decide), rfl, rfl⟩

theorem witness_WellFormedNeverRaisesRegisterRange :
    ∃ r, (Instr.push 7).wellFormed = true ∧
      exec (.push 7) State.reset.marked = .next (afterExec (.push 7) State.reset.marked) ∧
      (afterExec (.push 7) State.reset.marked).fault = some r ∧ r.space = some .register :=
  ⟨_, rfl, exec_after (by decide), rfl, rfl⟩

theorem witness_HandlerMovesPcAsTabled :
    exec .hlt State.reset = .next (afterExec .hlt State.reset) ∧
    exec (.jeq 8) State.reset = .next (afterExec (.jeq 8) State.reset) ∧
    exec (.call 7) State.reset = .next (afterExec (.call 7) State.reset) ∧
    exec (.add 8 0) State.reset = .next (afterExec (.add 8 0) State.reset) :=
  ⟨exec_after (by decide), exec_after (by decide), exec_after (by decide), exec_after (by decide)⟩

theorem witness_PcLeavesMemoryOnlyPastFd :
    let s := State.reset.at 0xFD 0xFD [0x82, 0x00, 0x05]
    s.pc ≤ 0xFF ∧ step s = .next (after s) ∧ 0xFF < (after s).pc := ⟨by decide, step_after (by decide), by decide⟩

theorem witness_OnlyCmpWritesFlags :
    exec (.inc 7) State.reset = .next (afterExec (.inc 7) State.reset) ∧ ∀ a b, Instr.inc 7 ≠ .cmp a b :=
  ⟨exec_after (by decide), fun _ _ h => Instr.noConfusion h⟩

theorem witness_OneHotFlagsFromFirstCmpOn :
    let s := (State.reset.setFlags ⟨false, false, true⟩).at 0 0 [0xA7, 7, 7]
    ((7 : Byte).toNat < 8) ∧ s.fl.oneHot = true ∧ step s = .next (after s) :=
  ⟨by decide, by decide, step_after (by decide)⟩

theorem witness_OutputGrowsOnlyByPrnAndPra :
    exec (.prn 7) State.reset = .next (afterExec (.prn 7) State.reset) ∧
    exec (.pra 7) State.reset = .next (afterExec (.pra 7) State.reset) :=
  ⟨exec_after (by decide), exec_after (by decide)⟩

theorem witness_OnlyHltAndFaultsClearRunning :
    let t := afterExec .hlt State.reset
    let u := afterExec (.inc 8) State.reset
    let v := afterExec (.inc 1) State.reset.stop
    (exec .hlt State.reset = .next t ∧ State.reset.running = true ∧ t.running = false) ∧
    (exec (.inc 8) State.reset = .next u ∧ u.running = false) ∧
    exec (.inc 1) State.reset.stop = .next v ∧ State.reset.stop.running = false :=
  ⟨⟨exec_after (by decide), rfl, rfl⟩, ⟨exec_after (by decide), rfl⟩, exec_after (by decide), rfl⟩

theorem witness_MemoryChangesOnlyByTheListedWrite :
    exec (.push 7) State.reset = .next (afterExec (.push 7) State.reset) ∧
      .write 0xF3 0xF3 ∈ dataAccess Config.spReg (.push 7) State.reset ∧
      ∀ v, .write 0xF4 v ∉ dataAccess Config.spReg (.push 7) State.reset :=
  ⟨exec_after (by decide), by decide, fun v h => by
    rw [show dataAccess Config.spReg (.push 7) State.reset = [.write 0xF3 0xF3] from by decide] at h; simp at h⟩

/-- Two memories that differ where the step does not read, and a store to the address where they differ. -/
theorem witness_StepReadsOnlyTheListedAddresses :
    let s := (withRegs [(1, 9), (0, 7)]).at 0 0 [0x84, 0x01, 0x00]
    let s' := s.setMem (s.mem.write 9 1)
    SameButMem s s' ∧ (∀ a, .read a ∈ stepAccesses s → s'.mem.read a = s.mem.read a) ∧ step s = .next (after s) ∧
      .write 9 7 ∈ stepAccesses s ∧ s ≠ s' := by
  refine ⟨⟨_, rfl⟩, fun a ha => ?_, step_after (by decide), by decide, by decide⟩
  rw [test_store_accesses] at ha
  simp only [List.mem_cons, Access.read.injEq, reduceCtorEq, List.not_mem_nil, or_false] at ha
  obtain rfl | rfl | rfl := ha <;> decide

/-- A ST into the byte after it, the opcode of the next instruction. -/
theorem witness_NextFetchSeesTheStore :
    let s := withRegs [(1, 3), (0, 1)]
    let t := afterExec (.st 1 0) s
    exec (.st 1 0) s = .next t ∧ .write 3 1 ∈ dataAccess Config.spReg (.st 1 0) s ∧ t.pc = 3 ∧ t.pc ≤ 0xFD :=
  ⟨exec_after (by decide), by decide, by decide, by decide⟩

theorem witness_LessAndGreaterAreUnobservable :
    let s := State.reset.setFlags ⟨false, true, false⟩
    let s' := State.reset.setFlags ⟨false, false, true⟩
    (SameButLG s s' ∧ step s = .next (after s) ∧ s ≠ s') ∧
      SameButLG s.stop s'.stop ∧ step s.stop = .fault .halted :=
  ⟨⟨⟨false, true, rfl⟩, step_after (by decide), by decide⟩, ⟨false, true, rfl⟩, rfl⟩

theorem reset_inv : State.reset.Inv := ⟨by decide, by decide, fun _ h => nomatch h⟩

theorem witness_StepKeepsInvariant : State.reset.Inv ∧ step State.reset = .next (after State.reset) :=
  ⟨reset_inv, step_after (by decide)⟩

theorem witness_ResetRegisterFile : (0 : Reg) ≠ 7 ∧ (7 : Reg) ≠ 6 := by decide

theorem ones_length (n : Nat) : (List.replicate n (1 : Byte)).length = n := List.length_replicate

theorem witness_LoadedImageReadsBack :
    (List.replicate 256 (1 : Byte)).length ≤ 256 ∧ 255 < (List.replicate 256 (1 : Byte)).length ∧
      ([] : List Byte).length ≤ 0 :=
  ⟨Nat.le_of_eq (ones_length 256), Nat.lt_of_lt_of_eq (by decide) (ones_length 256).symm, by decide⟩

theorem witness_LoadIsDefinedOnlyBeforeFirstStep :
    let h (p : Phase) : Session := ⟨State.reset, p⟩
    ((h .ready).phase ≠ .started ∧ (h .loadFailed).phase ≠ .started ∧ (List.replicate 256 (1 : Byte)).length ≤ 256 ∧
      256 < (List.replicate 257 (1 : Byte)).length) ∧
    (h .started).phase = .started ∧ (h .loadFailed).phase = .loadFailed ∧
    (h .ready).step = .next ⟨after State.reset, .started⟩ :=
  ⟨⟨by decide, by decide, Nat.le_of_eq (ones_length 256), Nat.lt_of_lt_of_eq (by decide) (ones_length 257).symm⟩,
    rfl, rfl, rfl⟩

/-- R106: after a loader failure and before the first step a load is still defined. -/
theorem test_load_after_failure :
    let r := (Session.mk State.reset .ready).loaderFailure.load [0x01]
    r.2 = .success ∧ r.1.core.mem.read 0 = 1 ∧ r.1.step = .refused .coreNotStarted := ⟨rfl, by decide, rfl⟩

theorem witness_LoadKeepsInvariant : State.reset.Inv ∧ (List.replicate 256 (1 : Byte)).length ≤ 256 :=
  ⟨reset_inv, Nat.le_of_eq (ones_length 256)⟩

theorem witness_RunEndsOnlyStopped : runFor 1 State.reset = some (after State.reset) ∧ State.reset.Inv :=
  ⟨rfl, reset_inv⟩

theorem witness_JumpToItselfRunsForever :
    let s := (withRegs [(7, 0xFD)]).at 0xFD 0xFD [0x54, 7]
    s.running = true ∧ s.pc ≤ 0xFD ∧ s.mem.read s.pc = 0x54 ∧ (s.mem.read (s.pc + 1)).toNat = (7 : Reg).val ∧
      (s.getReg 7).toNat = s.pc := by decide

/-- The hypotheses of the statements about one instruction that has register operands and no other condition: they ask
nothing of the state, and hold of the first and the last byte that names a register, and of the first and the last that
names none, as operand A and as operand B. -/
def OperandClauses : Prop :=
  ((0 : Byte).toNat = (0 : Reg).val ∧ (7 : Byte).toNat = (7 : Reg).val) ∧
    8 ≤ (8 : Byte).toNat ∧ 8 ≤ (255 : Byte).toNat ∧ (7 : Byte).toNat < 8

theorem operandClauses : OperandClauses := by unfold OperandClauses; decide

theorem witness_AddWritesSumModulo256 : OperandClauses := operandClauses
theorem witness_MulWritesProductModulo256 : OperandClauses := operandClauses
theorem witness_IncAddsOneModulo256 : OperandClauses := operandClauses
theorem witness_DecSubtractsOneModulo256 : OperandClauses := operandClauses
theorem witness_CmpSetsUnsignedComparisonFlags : OperandClauses := operandClauses
theorem witness_JmpGoesToRegister :
    OperandClauses ∧ ((withRegs [(7, 0xFD)]).getReg 7).toNat = ((withRegs [(7, 0xFD)]).setPc 0xFD).pc :=
  ⟨operandClauses, rfl⟩
theorem witness_LdiLoadsImmediateByte : OperandClauses := operandClauses
theorem witness_LdLoadsByteAtRegister : OperandClauses := operandClauses
theorem witness_StStoresByteAtRegister : OperandClauses := operandClauses
theorem witness_PrnEmitsDecimalEvent : OperandClauses := operandClauses
theorem witness_PraEmitsCharacterEvent : OperandClauses := operandClauses

/-- PUSH and CALL: the stack pointer at 1 and at 0, with an operand that names it and one that names no register. -/
theorem witness_PushStoresBelowStackPointer :
    ((7 : Byte).toNat = Config.spReg.val ∧ 1 ≤ ((withRegs [(7, 1)]).getReg Config.spReg).toNat) ∧
    ((7 : Byte).toNat < 8 ∧ ((withRegs [(7, 0)]).getReg Config.spReg).toNat = 0) ∧ 8 ≤ (8 : Byte).toNat := by decide

theorem witness_CallPushesReturnAddressAndJumps :
    ((0 : Byte).toNat = (0 : Reg).val ∧ 1 ≤ ((withRegs [(7, 1)]).getReg Config.spReg).toNat ∧
      (State.reset.setPc 0xFD).pc ≤ 0xFD) ∧
    ((0 : Byte).toNat < 8 ∧ ((withRegs [(7, 0)]).getReg Config.spReg).toNat = 0) ∧ 8 ≤ (8 : Byte).toNat := by decide

/-- POP into another register at 0xFE and at 0xFF, and into the stack pointer where the byte it points to is 0xFE and 0xFF. -/
theorem witness_PopLoadsFromStackPointer :
    let sp1 (i : Reg) (s : State) : Byte :=
      if i = Config.spReg then s.mem.read (s.getReg Config.spReg).toNat else s.getReg Config.spReg
    (0 : Reg) ≠ Config.spReg ∧ (sp1 0 (withRegs [(7, 0xFE)])).toNat < 0xFF ∧ (sp1 0 (withRegs [(7, 0xFF)])).toNat = 0xFF ∧
      (sp1 7 (State.reset.at 0 0xF4 [0xFE])).toNat < 0xFF ∧ (sp1 7 (State.reset.at 0 0xF4 [0xFF])).toNat = 0xFF := by
  decide

theorem witness_RetJumpsToPoppedByte :
    ((withRegs [(7, 0xFE)]).getReg Config.spReg).toNat < 0xFF ∧
      ((withRegs [(7, 0xFF)]).getReg Config.spReg).toNat = 0xFF := by decide

theorem witness_PushThenPopReproducesValue :
    (0 : Byte).toNat = (0 : Reg).val ∧ (6 : Byte).toNat = (6 : Reg).val ∧ (0 : Reg) ≠ 7 ∧ (6 : Reg) ≠ 7 ∧
      1 ≤ ((withRegs [(7, 1)]).getReg 7).toNat := by decide

theorem witness_CallThenRetResumesAfterCall :
    (7 : Byte).toNat = (7 : Reg).val ∧ 1 ≤ ((withRegs [(7, 1)]).getReg 7).toNat ∧ (State.reset.setPc 0xFD).pc ≤ 0xFD := by
  decide

/-- JEQ and JNE: Equal set and clear, with an operand that names a register and one that does not. -/
theorem witness_JeqJumpsIffEqual :
    (State.reset.setFlags ⟨true, false, false⟩).fl.e = true ∧ State.reset.fl.e = false ∧
      (7 : Byte).toNat = (7 : Reg).val ∧ 8 ≤ (8 : Byte).toNat := by decide

theorem witness_JneJumpsIffNotEqual :
    State.reset.fl.e = false ∧ (State.reset.setFlags ⟨true, false, false⟩).fl.e = true ∧
      (7 : Byte).toNat = (7 : Reg).val ∧ 8 ≤ (8 : Byte).toNat := by decide

theorem witness_HltStopsTheCoreInPlace :
    State.reset.fault = none ∧ ∀ p ∈ [0xFE, 0xFF], let s := State.reset.at p p [0x01]
      s.running = true ∧ (s.pc = 0xFE ∨ s.pc = 0xFF) ∧ s.mem.read s.pc = 0x01 := by decide

theorem witness_SpRegAndFlagsResetAreArguments :
    (Instr.inc 7 ≠ .ret) ∧ ∀ a, Instr.inc 7 ≠ .push a ∧ Instr.inc 7 ≠ .pop a ∧ Instr.inc 7 ≠ .call a :=
  ⟨nofun, fun _ => ⟨nofun, nofun, nofun⟩⟩

/-- Stack pointer 3 at 1, at 0, at 0xFE and at 0xFF, with an operand that names it and one that does not. -/
theorem witness_StackInstructionsFollowSpReg :
    ((3 : Byte).toNat = (3 : Reg).val ∧ (7 : Byte).toNat = (7 : Reg).val) ∧
      1 ≤ ((withRegs [(3, 1)]).getReg 3).toNat ∧ ((withRegs [(3, 0)]).getReg 3).toNat = 0 ∧
      ((withRegs [(3, 0xFE)]).getReg 3).toNat < 0xFF ∧ ((withRegs [(3, 0xFF)]).getReg 3).toNat = 0xFF := by decide

/-- A core whose stack pointer is register 3: PUSH moves that register and no other. -/
theorem test_push_other_stack_pointer :
    let s := State.resetWith 3 ⟨true, false, false⟩
    let t := (nextOf (execWith 3 (.push 7) s)).getD s
    s.getReg 3 = 0xF4 ∧ t.getReg 3 = 0xF3 ∧ t.getReg 7 = 0 ∧ t.pc = 2 := by decide

theorem witness_EveryCoreKeepsInvariant :
    let s := State.reset.setFlags ⟨true, false, false⟩
    stepWith 3 s = .next ((nextOf (stepWith 3 s)).getD s) ∧ State.Inv s ∧ s.fl.oneHot = true :=
  ⟨rfl, ⟨by decide, by decide, fun _ h => nomatch h⟩, by decide⟩

end Sys2Proof.Machine
end

section
/-! PROOFS. 00_scope.md R5: the core with any SP_REG. What a step of it can do, the invariant it keeps, the results and
frames of the four stack instructions, and the parameters as arguments. -/

namespace Sys2Proof.Machine

/-! ## What every step keeps -/

/-- Everything a step of a core with any SP_REG can do: take an exception, or complete the decoded instruction
(40_engine.md R58, 00_scope.md R8). -/
theorem stepWith_next {sp : Reg} {s t : State} (h : stepWith sp s = .next t) :
    s.running = true ∧
      ((∃ e, t = s.takeException e) ∨ ∃ i, s.fetchDecode = .ok i ∧ Completed sp s i t) := by
  obtain ⟨hrun, ⟨e, -, ht⟩ | ⟨i, hi, hx⟩⟩ := stepBy_next h
  · exact ⟨hrun, .inl ⟨e, ht⟩⟩
  · rcases execWith_next hx with hc | ⟨m, v, -, ht⟩
    · exact ⟨hrun, .inr ⟨i, hi, hc⟩⟩
    · exact ⟨hrun, .inl ⟨_, ht⟩⟩

/-- Taking an exception keeps the invariant: the record it writes is well-formed and names the `pc`, which stays. -/
theorem State.Inv.takeException {s : State} (h : s.Inv) (e : Exn) : (s.takeException e).Inv := by
  obtain ⟨hmem, hpc, -⟩ := h
  refine ⟨hmem, hpc, fun r hr => ?_⟩
  cases hr
  exact ⟨rfl, s.recordOf_wf e, rfl⟩

/-- A running core that meets the invariant has no fault record (10_state.md R25). -/
theorem State.Inv.fault_eq_none {s : State} (h : s.Inv) (hrun : s.running = true) : s.fault = none := by
  obtain ⟨-, -, hfault⟩ := h
  cases hf : s.fault with
  | none => rfl
  | some r =>
    obtain ⟨hstop, -, -⟩ := hfault r hf
    simp [hrun] at hstop

/-- Every write of an instruction goes to the address in a byte, so memory keeps its canonical form (20_memory.md R38). -/
theorem Completed.mem_wf {sp : Reg} {i : Instr} {s t : State} (h : Completed sp s i t) (hwf : s.mem.wf = true) :
    t.mem.wf = true := by
  have hwrite (a v : Byte) : (s.mem.write a.toNat v).wf = true := Memory.wf_write hwf a.isLt v
  cases h with
  | push _ _ => exact hwrite _ _
  | call _ _ => exact hwrite _ _
  | st _ => exact hwrite _ _
  | pop _ hu _ => subst hu; exact hwf
  | _ => exact hwf

/-- A completed instruction sets `pc` to a byte or advances it by at most 3 (10_state.md R19). -/
theorem Completed.pc_le {sp : Reg} {i : Instr} {s t : State} (h : Completed sp s i t) :
    t.pc ≤ 0xFF ∨ t.pc ≤ s.pc + 3 := by
  have hbyte (v : Byte) : v.toNat ≤ 0xFF := Nat.le_of_lt_succ v.isLt
  cases h with
  | ret _ => exact .inl (hbyte _)
  | call _ _ => exact .inl (hbyte _)
  | jmp _ => exact .inl (hbyte _)
  | jeqTaken _ _ => exact .inl (hbyte _)
  | jneTaken _ _ => exact .inl (hbyte _)
  | pop _ hu _ => subst hu; exact .inr (by simp)
  | _ => exact .inr (by simp)

/-- A completed instruction leaves the flags alone, or is a CMP and writes all three (10_state.md R20). -/
theorem Completed.fl_eq_or_cmp {sp : Reg} {i : Instr} {s t : State} (h : Completed sp s i t) :
    t.fl = s.fl ∨ ∃ a b u v, i = .cmp a b ∧ t.fl = compareFlags u v := by
  cases h with
  | cmp _ => exact .inr ⟨_, _, _, _, rfl, rfl⟩
  | pop _ hu _ => subst hu; exact .inl rfl
  | _ => exact .inl rfl

/-- A comparison sets exactly one flag: less, equal and greater exclude each other (10_state.md R22). -/
theorem compareFlags_oneHot (u v : Byte) : (compareFlags u v).oneHot = true := by
  rcases Nat.lt_trichotomy u.toNat v.toNat with h | h | h
  · simp [compareFlags, Flags.oneHot, h, h.ne, h.le]
  · simp [compareFlags, Flags.oneHot, h]
  · simp [compareFlags, Flags.oneHot, h, h.ne', h.le]

theorem Completed.oneHot {sp : Reg} {i : Instr} {s t : State} (h : Completed sp s i t) (hs : s.fl.oneHot = true) :
    t.fl.oneHot = true := by
  rcases h.fl_eq_or_cmp with hfl | ⟨-, -, u, v, -, hfl⟩
  · rw [hfl, hs]
  · rw [hfl, compareFlags_oneHot]

/-- A completed instruction that was fetched in a running core keeps the invariant: the fetch succeeded, so `pc` was at most
0xFD and no advance leads past 0x100 (decision D4). -/
theorem State.Inv.completed {sp : Reg} {i : Instr} {s t : State} (h : s.Inv) (hrun : s.running = true)
    (hi : s.fetchDecode = .ok i) (hc : Completed sp s i t) : t.Inv := by
  have hnone : t.fault = none := by rw [hc.fault_eq, h.fault_eq_none hrun]
  obtain ⟨hmem, -, -⟩ := h
  obtain ⟨hpc, -⟩ := State.fetchDecode_ok hi
  refine ⟨hc.mem_wf hmem, ?_, fun r hr => ?_⟩
  · rcases hc.pc_le with hle | hle <;> omega
  · simp [hnone] at hr

/-- Settles O59: a step takes an exception or completes an instruction, and both keep the invariant and one-hot flags. -/
theorem everyCoreKeepsInvariant : Obligations.EveryCoreKeepsInvariant := by
  unfold Obligations.EveryCoreKeepsInvariant
  intro sp s t h
  obtain ⟨hrun, ⟨e, rfl⟩ | ⟨i, hi, hc⟩⟩ := stepWith_next h
  · exact ⟨fun hinv => hinv.takeException e, id⟩
  · exact ⟨fun hinv => hinv.completed hrun hi hc, hc.oneHot⟩

/-! ## Frames -/

theorem KeepsRegsExcept.refl (ws : List Reg) (s : State) : KeepsRegsExcept ws s s := fun _ _ => rfl

/-- A write to a listed register stays within the frame. -/
theorem KeepsRegsExcept.setReg {ws : List Reg} {s t : State} (h : KeepsRegsExcept ws s t) {i : Reg} (hi : i ∈ ws)
    (v : Byte) : KeepsRegsExcept ws s (t.setReg i v) := by
  intro k hk
  have hne : i ≠ k := fun hik => hk (hik ▸ hi)
  rw [State.getReg_setReg_ne t v hne, h k hk]

theorem KeepsMemExcept.refl (as : List Nat) (s : State) : KeepsMemExcept as s s := fun _ _ => rfl

/-! ## PUSH and CALL -/

/-- What a push of the byte `v` leaves: SP one lower, and `v` at the new SP (42_stack.md R74). -/
def State.pushed (s : State) (sp : Reg) (v : Byte) : State :=
  (s.setReg sp (s.getReg sp - 1)).setMem (s.mem.write (s.getReg sp - 1).toNat v)

section
variable {s : State} {sp : Reg} (hsp : 1 ≤ (s.getReg sp).toNat) (v : Byte)
include hsp

theorem State.pushed_sp : ((s.pushed sp v).getReg sp).toNat = (s.getReg sp).toNat - 1 := by
  rw [State.pushed, State.setMem_getReg, State.getReg_setReg_self, toNat_sub_one hsp]

theorem State.pushed_read : (s.pushed sp v).mem.read ((s.getReg sp).toNat - 1) = v := by
  rw [State.pushed, State.setMem_mem, toNat_sub_one hsp, Memory.read_write_same]

theorem State.pushed_keepsMem : KeepsMemExcept [(s.getReg sp).toNat - 1] s (s.pushed sp v) := by
  intro a ha
  have hne : (s.getReg sp - 1).toNat ≠ a := by
    rw [toNat_sub_one hsp]
    exact fun h => ha (by simp [h])
  exact s.mem.read_write_ne v hne

end

theorem State.pushed_keepsRegs (s : State) (sp : Reg) (v : Byte) : KeepsRegsExcept [sp] s (s.pushed sp v) :=
  (KeepsRegsExcept.refl [sp] s).setReg (by simp) _

/-- PUSH where SP is not 0; the byte is read after SP moved (42_stack.md R75, decision D9). -/
theorem execWith_push_of_pos {sp i : Reg} {a v : Byte} {s : State} (ha : a.toNat = i.val)
    (hsp : 1 ≤ (s.getReg sp).toNat) (hv : v = (s.setReg sp (s.getReg sp - 1)).getReg i) :
    execWith sp (.push a) s = .next ((s.pushed sp v).advance 2) := by
  subst hv
  simp [execWith, State.pushHandler, regOperand, ridx_of_val ha, s.pushByte_of_pos sp _ hsp, State.pushed, pure,
    Except.pure]

theorem execWith_push_of_zero {sp i : Reg} {a : Byte} {s : State} (ha : a.toNat = i.val)
    (hsp : (s.getReg sp).toNat = 0) :
    execWith sp (.push a) s = .next (s.takeException (.addressOutOfRange .memory (-1))) := by
  simp [execWith, State.pushHandler, regOperand, ridx_of_val ha, s.pushByte_of_zero sp _ hsp]

/-- CALL where SP is not 0; the target is read after SP moved (42_stack.md R77, decision D9). -/
theorem execWith_call_of_pos {sp i : Reg} {a v : Byte} {s : State} (ha : a.toNat = i.val)
    (hsp : 1 ≤ (s.getReg sp).toNat) (hv : v = BitVec.ofNat 8 (s.pc + 2)) :
    execWith sp (.call a) s = .next ((s.pushed sp v).jumpTo ((s.pushed sp v).getReg i)) := by
  subst hv
  simp [execWith, State.callHandler, regOperand, ridx_of_val ha, s.pushByte_of_pos sp _ hsp, State.pushed, pure,
    Except.pure]

theorem execWith_call_of_zero {sp i : Reg} {a : Byte} {s : State} (ha : a.toNat = i.val)
    (hsp : (s.getReg sp).toNat = 0) :
    execWith sp (.call a) s = .next (s.takeException (.addressOutOfRange .memory (-1))) := by
  simp [execWith, State.callHandler, regOperand, ridx_of_val ha, s.pushByte_of_zero sp _ hsp]

/-- The return address fits in a byte wherever a fetch succeeds (42_stack.md R77). -/
theorem toNat_returnAddress {pc : Nat} (h : pc ≤ 0xFD) : (BitVec.ofNat 8 (pc + 2)).toNat = pc + 2 := by
  rw [BitVec.toNat_ofNat]
  omega

/-! ## POP and RET -/

/-- What the second half of a pop leaves: SP one higher (42_stack.md R74). -/
def State.spRaised (s : State) (sp : Reg) : State := s.setReg sp (s.getReg sp + 1)

theorem State.spRaised_sp {s : State} {sp : Reg} (h : (s.getReg sp).toNat < 0xFF) :
    ((s.spRaised sp).getReg sp).toNat = (s.getReg sp).toNat + 1 := by
  rw [State.spRaised, State.getReg_setReg_self, toNat_add_one h]

theorem State.spRaised_getReg_ne {s : State} {sp i : Reg} (h : i ≠ sp) : (s.spRaised sp).getReg i = s.getReg i :=
  s.getReg_setReg_ne _ h.symm

/-- POP where SP, read after `x[a]` was written to give the state `u`, is below 0xFF (42_stack.md R76, decision D9). -/
theorem execWith_pop_of_lt {sp i : Reg} {a : Byte} {s u : State} (ha : a.toNat = i.val)
    (hu : u = s.setReg i (s.mem.read (s.getReg sp).toNat)) (h : (u.getReg sp).toNat < 0xFF) :
    execWith sp (.pop a) s = .next ((u.spRaised sp).advance 2) := by
  subst hu
  simp [execWith, State.popHandler, regOperand, ridx_of_val ha, State.incSP_of_lt _ sp h, State.spRaised, pure,
    Except.pure]

theorem execWith_pop_of_top {sp i : Reg} {a : Byte} {s u : State} (ha : a.toNat = i.val)
    (hu : u = s.setReg i (s.mem.read (s.getReg sp).toNat)) (h : (u.getReg sp).toNat = 0xFF) :
    execWith sp (.pop a) s = .next (s.takeException (.addressOutOfRange .stackPointer 0x100)) := by
  subst hu
  simp [execWith, State.popHandler, regOperand, ridx_of_val ha, State.incSP_of_top _ sp h]

/-- RET where SP is below 0xFF (42_stack.md R78). -/
theorem execWith_ret_of_lt {sp : Reg} {s : State} (h : (s.getReg sp).toNat < 0xFF) :
    execWith sp .ret s = .next ((s.spRaised sp).jumpTo (s.mem.read (s.getReg sp).toNat)) := by
  simp [execWith, State.retHandler, s.incSP_of_lt sp h, State.spRaised, pure, Except.pure]

theorem execWith_ret_of_top {sp : Reg} {s : State} (h : (s.getReg sp).toNat = 0xFF) :
    execWith sp .ret s = .next (s.takeException (.addressOutOfRange .stackPointer 0x100)) := by
  simp [execWith, State.retHandler, s.incSP_of_top sp h]

/-- Settles O58: each instruction's answer is given above, and its fields are those of `State.pushed` and
`State.spRaised`. -/
theorem stackInstructionsFollowSpReg : Obligations.StackInstructionsFollowSpReg := by
  unfold Obligations.StackInstructionsFollowSpReg
  intro sp i a s ha
  refine ⟨fun hsp => ⟨?push, ?call⟩, fun hsp => ⟨execWith_push_of_zero ha hsp, execWith_call_of_zero ha hsp⟩,
    fun v sp1 hv hsp1 => ?pop, fun hsp => ?ret, execWith_ret_of_top⟩
  case push =>
    obtain ⟨v, hv⟩ : ∃ v, v = (s.setReg sp (s.getReg sp - 1)).getReg i := ⟨_, rfl⟩
    exact ⟨_, execWith_push_of_pos ha hsp hv, State.pushed_sp hsp v, (State.pushed_read hsp v).trans hv, rfl,
      s.pushed_keepsRegs sp v, State.pushed_keepsMem hsp v, ⟨rfl, rfl, rfl⟩, rfl⟩
  case call =>
    obtain ⟨v, hv⟩ : ∃ v, v = BitVec.ofNat 8 (s.pc + 2) := ⟨_, rfl⟩
    refine ⟨_, execWith_call_of_pos ha hsp hv, State.pushed_sp hsp v, fun hpc => ?_, rfl,
      s.pushed_keepsRegs sp v, State.pushed_keepsMem hsp v, ⟨rfl, rfl, rfl⟩, rfl⟩
    rw [State.jumpTo_mem, State.pushed_read hsp, hv, toNat_returnAddress hpc]
  case pop =>
    obtain ⟨u, hu⟩ : ∃ u, u = s.setReg i v := ⟨_, rfl⟩
    have hget : sp1 = u.getReg sp := by rw [hu, State.getReg_setReg, hsp1]
    rw [hget]
    subst hv
    refine ⟨fun hlt => ?_, execWith_pop_of_top ha hu⟩
    refine ⟨_, execWith_pop_of_lt ha hu hlt, fun hne => ?_, State.spRaised_sp hlt, ?_⟩
    · rw [State.advance_getReg, State.spRaised_getReg_ne hne, hu, State.getReg_setReg_self]
    · have hregs : KeepsRegsExcept [i, sp] s u := hu ▸ (KeepsRegsExcept.refl _ s).setReg (by simp) _
      subst hu
      exact ⟨rfl, hregs.setReg (by simp) _, KeepsMemExcept.refl _ s, ⟨rfl, rfl, rfl⟩, rfl⟩
  case ret =>
    exact ⟨_, execWith_ret_of_lt hsp, rfl, State.spRaised_sp hsp, (KeepsRegsExcept.refl _ s).setReg (by simp) _,
      KeepsMemExcept.refl _ s, ⟨rfl, rfl, rfl⟩, rfl⟩

/-! ## The parameters as arguments -/

theorem core_eq_coreWith : core = coreWith Config.spReg Config.flagsReset := by
  rw [core, coreWith, State.reset, funext step_eq_stepWith]

theorem runFor_eq_runForWith (fuel : Nat) (s : State) : runFor fuel s = runForWith Config.spReg fuel s := by
  rw [runFor, runForWith, funext step_eq_stepWith]

/-- Only PUSH, POP, CALL and RET use the stack pointer implicitly (10_state.md R17). -/
theorem execWith_eq_exec_of_not_stack (sp : Reg) {i : Instr} (s : State) (hret : i ≠ .ret)
    (hstack : ∀ a, i ≠ .push a ∧ i ≠ .pop a ∧ i ≠ .call a) : execWith sp i s = exec i s := by
  cases i with
  | ret => exact absurd rfl hret
  | push a => exact absurd rfl (hstack a).1
  | pop a => exact absurd rfl (hstack a).2.1
  | call a => exact absurd rfl (hstack a).2.2
  | _ => rfl

/-- Settles O57: the host's core, `exec` and the run are the case of the model's values, and only the four stack
instructions name SP_REG. -/
theorem spRegAndFlagsResetAreArguments : Obligations.SpRegAndFlagsResetAreArguments := by
  unfold Obligations.SpRegAndFlagsResetAreArguments
  exact ⟨core_eq_coreWith, exec_eq_execWith, runFor_eq_runForWith,
    fun sp _ s => execWith_eq_exec_of_not_stack sp s⟩

end Sys2Proof.Machine
end

section
/-! PROOFS. 10_state.md: what an instruction and a step do to `pc`, the flags, the running flag and the output stream, the
invariant every step keeps, and that no program observes LessThan and GreaterThan. -/

namespace Sys2Proof.Machine

/-! ## Completed effects are answers -/

/-- The converse of `execWith_next` for an instruction that completes: where its conditions hold, its effect is the
answer. -/
theorem Completed.execWith_eq {sp : Reg} {i : Instr} {s t : State} (h : Completed sp s i t) :
    execWith sp i s = .next t := by
  cases h with
  | hlt => rfl
  | ret hsp => exact execWith_ret_of_lt hsp
  | push hi hsp => exact execWith_push_of_pos (val_of_ridx hi) hsp rfl
  | pop hi hu hsp => exact execWith_pop_of_lt (val_of_ridx hi) hu hsp
  | call hi hsp => exact execWith_call_of_pos (val_of_ridx hi) hsp rfl
  | prn hi => simp [execWith, execPrn, State.print, regOperand, hi, pure, Except.pure]
  | pra hi => simp [execWith, execPra, State.print, regOperand, hi, pure, Except.pure]
  | jmp hi => simp [execWith, execJmp, State.jumpReg, regOperand, hi, pure, Except.pure]
  | jeqTaken he hi =>
    simp [execWith, execJeq, State.jumpIf, Flags.equal, he, State.jumpReg, regOperand, hi, pure, Except.pure]
  | jeqNot he => simp [execWith, execJeq, State.jumpIf, Flags.equal, he]
  | jneTaken he hi =>
    simp [execWith, execJne, State.jumpIf, Flags.notEqual, he, State.jumpReg, regOperand, hi, pure, Except.pure]
  | jneNot he => simp [execWith, execJne, State.jumpIf, Flags.notEqual, he]
  | inc hi => simp [execWith, execInc, State.aluSingle, regOperand, hi, alu, State.aluWrite, pure, Except.pure]
  | dec hi => simp [execWith, execDec, State.aluSingle, regOperand, hi, alu, State.aluWrite, pure, Except.pure]
  | ldi hi => simp [execWith, execLdi, State.ldiHandler, regOperand, hi, immOperand, pure, Except.pure]
  | ld hp => simp [execWith, execLd, State.ldHandler, hp, pure, Except.pure]
  | st hp => simp [execWith, execSt, State.stHandler, hp, pure, Except.pure]
  | add hp => simp [execWith, execAdd, State.aluPair, hp, alu, State.aluWrite, pure, Except.pure]
  | mul hp => simp [execWith, execMul, State.aluPair, hp, alu, State.aluWrite, pure, Except.pure]
  | cmp hp => simp [execWith, execCmp, State.aluPair, hp, alu, State.aluWrite, pure, Except.pure]

/-- `Completed.execWith_eq` at the model's SP_REG. -/
theorem Completed.exec_eq {i : Instr} {s t : State} (h : Completed Config.spReg s i t) : exec i s = .next t :=
  (exec_eq_execWith i s).trans h.execWith_eq

/-- A step answers a fault exactly where the core has no step (40_engine.md R57): no instruction answers one. -/
theorem step_fault_iff {s : State} {f : Fault} : step s = .fault f ↔ s.noStep = some f := by
  cases hn : s.noStep with
  | some f' => simp [step, stepBy, hn]
  | none =>
    rw [step_of_running (State.noStep_eq_none.mp hn)]
    cases s.fetchDecode with
    | error e => simp
    | ok i =>
      obtain ⟨t, ht⟩ := exec_total i s
      simp [ht]

/-! ## LessThan and GreaterThan -/

theorem SameButLG.symm {s s' : State} (h : SameButLG s s') : SameButLG s' s := by
  obtain ⟨l, g, rfl⟩ := h
  exact ⟨s.fl.l, s.fl.g, rfl⟩

/-- The same exception taken in both states: its record does not hold the flags (60_exceptions.md R93). -/
theorem SameButLG.takeException {s s' : State} (h : SameButLG s s') (e : Exn) :
    SameButLG (s.takeException e) (s'.takeException e) := by
  obtain ⟨l, g, rfl⟩ := h
  exact ⟨l, g, rfl⟩

theorem SameButLG.fetchDecode_eq {s s' : State} (h : SameButLG s s') : s'.fetchDecode = s.fetchDecode := by
  obtain ⟨l, g, rfl⟩ := h
  rfl

theorem SameButLG.noStep_eq {s s' : State} (h : SameButLG s s') : s'.noStep = s.noStep := by
  obtain ⟨l, g, rfl⟩ := h
  rfl

/-- No cause of an exception reads LessThan or GreaterThan. -/
theorem Cause.of_sameButLG {sp : Reg} {s s' : State} {i : Instr} {m : Space} {v : Int} (h : Cause sp s i m v)
    (hs : SameButLG s s') : Cause sp s' i m v := by
  obtain ⟨l, g, rfl⟩ := hs
  have hbad (j : Instr) : State.badOperand? { s with fl := ⟨s.fl.e, l, g⟩ } j = s.badOperand? j := by
    cases j <;> rfl
  cases h with
  | operand hb => exact .operand ((hbad i).trans hb)
  | push hb hz => exact .push ((hbad _).trans hb) hz
  | call hb hz => exact .call ((hbad _).trans hb) hz
  | pop hb hz => exact .pop ((hbad _).trans hb) hz
  | ret hz => exact .ret hz

/-- An instruction has at most one cause in a state: an operand comes before the stack bound (60_exceptions.md R95). -/
theorem Cause.unique {sp : Reg} {s : State} {i : Instr} {m m' : Space} {v v' : Int} (h : Cause sp s i m v)
    (h' : Cause sp s i m' v') : m = m' ∧ v = v' := by
  cases h with
  | operand hb =>
    cases h' with
    | operand hb' =>
      cases hb.symm.trans hb'
      exact ⟨rfl, rfl⟩
    | push hb' _ | call hb' _ | pop hb' _ => exact absurd (hb.symm.trans hb') (by simp)
    | ret _ => exact absurd hb (by simp [State.badOperand?, Instr.regOperands])
  | push hb _ | call hb _ | pop hb _ =>
    cases h' with
    | operand hb' => exact absurd (hb.symm.trans hb') (by simp)
    | _ => exact ⟨rfl, rfl⟩
  | ret _ =>
    cases h' with
    | operand hb' => exact absurd hb' (by simp [State.badOperand?, Instr.regOperands])
    | ret _ => exact ⟨rfl, rfl⟩

/-- A completed instruction reads neither LessThan nor GreaterThan; CMP overwrites both. -/
theorem Completed.of_sameButLG {sp : Reg} {i : Instr} {s s' t : State} (h : Completed sp s i t)
    (hs : SameButLG s s') : ∃ t', Completed sp s' i t' ∧ SameButLG t t' := by
  obtain ⟨l, g, rfl⟩ := hs
  cases h with
  | hlt => exact ⟨_, .hlt, l, g, rfl⟩
  | ret hsp => exact ⟨_, .ret hsp, l, g, rfl⟩
  | push hi hsp => exact ⟨_, .push hi hsp, l, g, rfl⟩
  | pop hi hu hsp =>
    subst hu
    exact ⟨_, .pop hi rfl hsp, l, g, rfl⟩
  | prn hi => exact ⟨_, .prn hi, l, g, rfl⟩
  | pra hi => exact ⟨_, .pra hi, l, g, rfl⟩
  | call hi hsp => exact ⟨_, .call hi hsp, l, g, rfl⟩
  | jmp hi => exact ⟨_, .jmp hi, l, g, rfl⟩
  | jeqTaken he hi => exact ⟨_, .jeqTaken he hi, l, g, rfl⟩
  | jeqNot he => exact ⟨_, .jeqNot he, l, g, rfl⟩
  | jneTaken he hi => exact ⟨_, .jneTaken he hi, l, g, rfl⟩
  | jneNot he => exact ⟨_, .jneNot he, l, g, rfl⟩
  | inc hi => exact ⟨_, .inc hi, l, g, rfl⟩
  | dec hi => exact ⟨_, .dec hi, l, g, rfl⟩
  | ldi hi => exact ⟨_, .ldi hi, l, g, rfl⟩
  | ld hp => exact ⟨_, .ld hp, l, g, rfl⟩
  | st hp => exact ⟨_, .st hp, l, g, rfl⟩
  | add hp => exact ⟨_, .add hp, l, g, rfl⟩
  | mul hp => exact ⟨_, .mul hp, l, g, rfl⟩
  | cmp hp => exact ⟨_, .cmp hp, _, _, rfl⟩

/-- Two states that differ only in LessThan and GreaterThan: an instruction completes in both or raises the same exception
in both. -/
theorem SameButLG.exec_sameButLG {i : Instr} {s s' t : State} (hs : SameButLG s s') (h : exec i s = .next t) :
    ∃ t', exec i s' = .next t' ∧ SameButLG t t' := by
  rcases exec_next h with hc | ⟨m, v, hcause, rfl⟩
  · obtain ⟨t', hc', ht⟩ := hc.of_sameButLG hs
    exact ⟨t', hc'.exec_eq, ht⟩
  · obtain ⟨t', h'⟩ := exec_total i s'
    refine ⟨t', h', ?_⟩
    rcases exec_next h' with hc' | ⟨m', v', hcause', rfl⟩
    · obtain ⟨u, hc, hu⟩ := hc'.of_sameButLG hs.symm
      cases h.symm.trans hc.exec_eq
      exact hu.symm
    · obtain ⟨rfl, rfl⟩ := (hcause.of_sameButLG hs).unique hcause'
      exact hs.takeException _

/-- Settles O27: the fetch, the decode and every instruction take such states to such states, and where the core has no step
they answer the same fault. -/
theorem lessAndGreaterAreUnobservable : Obligations.LessAndGreaterAreUnobservable := by
  unfold Obligations.LessAndGreaterAreUnobservable
  intro s s' hs
  refine ⟨fun t h => ?_, fun f h => ?_⟩
  · have hrun' : s'.running = true := by
      rw [← State.noStep_eq_none, hs.noStep_eq, State.noStep_eq_none]
      exact (step_next h).1
    rw [step_of_running hrun', hs.fetchDecode_eq]
    obtain ⟨-, ⟨e, he, rfl⟩ | ⟨i, hi, hx⟩⟩ := step_next h
    · rw [he]
      exact ⟨_, rfl, hs.takeException e⟩
    · rw [hi]
      exact hs.exec_sameButLG hx
  · rw [step_fault_iff] at h ⊢
    rw [hs.noStep_eq, h]

/-! ## The invariant -/

/-- Settles O28: the case of the model's SP_REG of what the core with any SP_REG keeps. -/
theorem stepKeepsInvariant : Obligations.StepKeepsInvariant := by
  unfold Obligations.StepKeepsInvariant
  intro s t hinv h
  rw [step_eq_stepWith] at h
  obtain ⟨hkeep, -⟩ := everyCoreKeepsInvariant Config.spReg s t h
  exact hkeep hinv

/-! ## The program counter -/

/-- Settles O18: a handler raises, or its completed effect moves `pc` as the table has it. -/
theorem handlerMovesPcAsTabled : Obligations.HandlerMovesPcAsTabled := by
  unfold Obligations.HandlerMovesPcAsTabled
  intro i s t h
  rcases exec_next h with hc | ⟨m, v, -, ht⟩
  · right
    cases hc with
    | call hi _ => exact ⟨_, val_of_ridx hi, rfl⟩
    | jmp hi => exact ⟨_, val_of_ridx hi, rfl⟩
    | jeqTaken he hi => simpa [he] using ⟨_, val_of_ridx hi, rfl⟩
    | jeqNot he => simp [he]
    | jneTaken he hi => simpa [he] using ⟨_, val_of_ridx hi, rfl⟩
    | jneNot he => simp [he]
    | pop _ hu _ => subst hu; rfl
    | _ => rfl
  · exact .inl ⟨_, ht⟩

theorem instr_length_le_three (i : Instr) : i.length ≤ 3 := by
  unfold Instr.length
  split <;> decide

/-- A completed instruction that sets `pc` neither to a byte nor leaves it advances it by its length (10_state.md R19). -/
theorem Completed.pc_eq_advance {sp : Reg} {i : Instr} {s t : State} (h : Completed sp s i t) :
    t.pc ≤ 0xFF ∨ t.pc = s.pc ∨ t.pc = s.pc + i.length := by
  have hbyte (v : Byte) : v.toNat ≤ 0xFF := Nat.le_of_lt_succ v.isLt
  cases h with
  | hlt => exact .inr (.inl rfl)
  | ret _ => exact .inl (hbyte _)
  | call _ _ => exact .inl (hbyte _)
  | jmp _ => exact .inl (hbyte _)
  | jeqTaken _ _ => exact .inl (hbyte _)
  | jneTaken _ _ => exact .inl (hbyte _)
  | pop _ hu _ => subst hu; exact .inr (.inr rfl)
  | _ => exact .inr (.inr rfl)

/-- Settles O19: the fetch succeeded at a `pc` of at most 0xFD, so only the advance by 3 from there leads out. -/
theorem pcLeavesMemoryOnlyPastFd : Obligations.PcLeavesMemoryOnlyPastFd := by
  unfold Obligations.PcLeavesMemoryOnlyPastFd
  intro s t hs h ht
  rw [step_eq_stepWith] at h
  obtain ⟨-, ⟨e, rfl⟩ | ⟨i, hi, hc⟩⟩ := stepWith_next h
  · rw [State.takeException_pc] at ht
    omega
  · obtain ⟨hpc, hdec⟩ := State.fetchDecode_ok hi
    have hlen := instr_length_le_three i
    have hadv : t.pc = s.pc + i.length := by
      rcases hc.pc_eq_advance with hbyte | hsame | hadv
      · omega
      · omega
      · exact hadv
    exact ⟨by omega, by omega, i, hdec, by omega⟩

/-! ## The flags -/

/-- Settles O20: a completed instruction keeps the flags or is a CMP, and taking an exception keeps them. -/
theorem onlyCmpWritesFlags : Obligations.OnlyCmpWritesFlags := by
  unfold Obligations.OnlyCmpWritesFlags
  intro i s t h hcmp
  rcases exec_next h with hc | ⟨m, v, -, rfl⟩
  · rcases hc.fl_eq_or_cmp with hfl | ⟨a, b, -, -, hi, -⟩
    · exact hfl
    · exact absurd hi (hcmp a b)
  · rfl

/-- Settles O21: a CMP writes the flags of a comparison, and every step of a core with any SP_REG keeps one-hot flags. -/
theorem oneHotFlagsFromFirstCmpOn : Obligations.OneHotFlagsFromFirstCmpOn := by
  unfold Obligations.OneHotFlagsFromFirstCmpOn
  refine ⟨fun a b s ha hb => ?_, fun s t hs h => ?_⟩
  · exact ⟨_, (Completed.cmp (regPair_of_lt ha hb)).exec_eq, compareFlags_oneHot _ _⟩
  · rw [step_eq_stepWith] at h
    obtain ⟨-, hkeep⟩ := everyCoreKeepsInvariant Config.spReg s t h
    exact hkeep hs

/-! ## The output stream and the running flag -/

/-- Settles O22: of the completed effects only those of PRN and PRA emit, and taking an exception does not. -/
theorem outputGrowsOnlyByPrnAndPra : Obligations.OutputGrowsOnlyByPrnAndPra := by
  unfold Obligations.OutputGrowsOnlyByPrnAndPra
  intro i s t h
  rcases exec_next h with hc | ⟨m, v, -, rfl⟩
  · cases hc with
    | prn hi => exact .inr (.inl ⟨_, _, rfl, val_of_ridx hi, rfl⟩)
    | pra hi => exact .inr (.inr ⟨_, _, rfl, val_of_ridx hi, rfl⟩)
    | pop _ hu _ => subst hu; exact .inl rfl
    | _ => exact .inl rfl
  · exact .inl rfl

/-- A completed instruction keeps the running flag, or is HLT and clears it (10_state.md R24). -/
theorem Completed.running_eq_or_hlt {sp : Reg} {i : Instr} {s t : State} (h : Completed sp s i t) :
    t.running = s.running ∨ (i = .hlt ∧ t.running = false) := by
  cases h with
  | hlt => exact .inr ⟨rfl, rfl⟩
  | pop _ hu _ => subst hu; exact .inl rfl
  | _ => exact .inl rfl

/-- Settles O23: a completed instruction keeps the running flag or is HLT, and taking an exception clears it. -/
theorem onlyHltAndFaultsClearRunning : Obligations.OnlyHltAndFaultsClearRunning := by
  unfold Obligations.OnlyHltAndFaultsClearRunning
  intro i s t h
  rcases exec_next h with hc | ⟨m, v, -, ht⟩
  · rcases hc.running_eq_or_hlt with hkeep | ⟨hi, hstop⟩
    · rw [hkeep]
      exact ⟨id, fun hrun hstop => absurd hrun (by simp [hstop])⟩
    · exact ⟨fun _ => hstop, fun _ _ => .inl hi⟩
  · exact ⟨fun _ => ht ▸ rfl, fun _ _ => .inr ⟨_, ht⟩⟩

/-! ## The registers after reset -/

/-- Settles O30, by the registers' read after reset. -/
theorem resetRegisterFile : Obligations.ResetRegisterFile := by
  unfold Obligations.ResetRegisterFile
  refine fun sp fl => ⟨?_, fun i hi => ?_⟩
  · rw [State.getReg_resetWith, if_pos rfl, Config.spResetValue]
  · rw [State.getReg_resetWith, if_neg hi.symm, Config.regResetValue]

end Sys2Proof.Machine
end

section
/-! PROOFS. 20_memory.md: the one data access of an instruction and what it does to memory, that a step depends on no byte
it does not read, that the next fetch sees a store, and the image that `load` writes. -/

namespace Sys2Proof.Machine

/-! ## The data access of an instruction -/

/-- The write of a push in terms of the stack pointer's byte (42_stack.md R74). -/
theorem State.pushAccess_eq (s : State) (sp : Reg) (val : State → Byte) :
    s.pushAccess sp val =
      if (s.getReg sp).toNat = 0 then []
      else [.write (s.getReg sp - 1).toNat (val (s.setReg sp (s.getReg sp - 1)))] := by
  unfold State.pushAccess
  split_ifs with h
  · simp only [s.decSP_of_zero sp h]
  · simp only [s.decSP_of_pos sp (Nat.pos_of_ne_zero h), State.getReg_setReg_self]

section
variable (sp : Reg) (s : State) {a b : Byte} {i j : Reg}

theorem dataAccess_push_of_pos (hi : ridx a = .ok i) (hsp : 1 ≤ (s.getReg sp).toNat) :
    dataAccess sp (.push a) s =
      [.write (s.getReg sp - 1).toNat ((s.setReg sp (s.getReg sp - 1)).getReg i)] := by
  simp only [dataAccess, regOperand, hi, State.pushAccess_eq, if_neg (Nat.ne_of_gt hsp)]

theorem dataAccess_push_of_zero (hsp : (s.getReg sp).toNat = 0) : dataAccess sp (.push a) s = [] := by
  rcases ridx_cases a with ⟨hl, hp⟩ | ⟨-, hp⟩ <;> simp only [dataAccess, regOperand, hp, State.pushAccess_eq, if_pos hsp]

theorem dataAccess_call_of_pos (hi : ridx a = .ok i) (hsp : 1 ≤ (s.getReg sp).toNat) :
    dataAccess sp (.call a) s = [.write (s.getReg sp - 1).toNat (BitVec.ofNat 8 (s.pc + 2))] := by
  simp only [dataAccess, regOperand, hi, State.pushAccess_eq, if_neg (Nat.ne_of_gt hsp), State.setReg_pc]

theorem dataAccess_call_of_zero (hsp : (s.getReg sp).toNat = 0) : dataAccess sp (.call a) s = [] := by
  rcases ridx_cases a with ⟨hl, hp⟩ | ⟨-, hp⟩ <;> simp only [dataAccess, regOperand, hp, State.pushAccess_eq, if_pos hsp]

theorem dataAccess_pop (hi : ridx a = .ok i) : dataAccess sp (.pop a) s = [.read (s.getReg sp).toNat] := by
  simp only [dataAccess, regOperand, hi]

theorem dataAccess_ld (hp : regPair a b = .ok (i, j)) : dataAccess sp (.ld a b) s = [.read (s.getReg j).toNat] := by
  simp only [dataAccess, hp]

theorem dataAccess_st (hp : regPair a b = .ok (i, j)) :
    dataAccess sp (.st a b) s = [.write (s.getReg i).toNat (s.getReg j)] := by
  simp only [dataAccess, hp]

end

/-- A register operand that names no register fails the check of a pair it is in. -/
theorem regPair_error_of_mem {a b v : Byte} (hv : 8 ≤ v.toNat) (hm : v ∈ [a, b]) : ∃ e, regPair a b = .error e := by
  rcases regPair_cases a b with ⟨i, j, -, hi, hj⟩ | ⟨w, -, hp, -⟩
  · have := i.isLt
    have := j.isLt
    rcases List.mem_pair.mp hm with rfl | rfl <;> omega
  · exact ⟨_, hp⟩

/-- An instruction with a register operand that names no register raises before its data access (20_memory.md R33). -/
theorem dataAccess_of_badOperand {sp : Reg} {s : State} {i : Instr} {v : Byte} (h : s.badOperand? i = some v) :
    dataAccess sp i s = [] := by
  obtain ⟨-, hm, hv⟩ := State.badOperand?_some h
  cases i with
  | push a | call a | pop a =>
    obtain rfl := List.mem_singleton.mp hm
    simp only [dataAccess, regOperand, ridx_of_ge hv]
  | ld a b | st a b =>
    obtain ⟨e, he⟩ := regPair_error_of_mem hv hm
    simp only [dataAccess, he]
  | ret => cases hm
  | _ => rfl

/-- No access that writes: there is none, or one read. -/
def AtMostOneRead (as : List Access) : Prop := as = [] ∨ ∃ a, as = [.read a]

/-- An instruction that raises has written nothing: a faulting POP or RET has read the byte at SP (20_memory.md R33). -/
theorem Cause.dataAccess_atMostOneRead {sp : Reg} {s : State} {i : Instr} {m : Space} {v : Int} (h : Cause sp s i m v) :
    AtMostOneRead (dataAccess sp i s) := by
  cases h with
  | operand hb => exact .inl (dataAccess_of_badOperand hb)
  | push _ hz => exact .inl (dataAccess_push_of_zero sp s hz)
  | call _ hz => exact .inl (dataAccess_call_of_zero sp s hz)
  | @pop a _ _ =>
    rcases ridx_cases a with ⟨_, hp⟩ | ⟨-, hp⟩
    · exact .inr ⟨_, dataAccess_pop sp s hp⟩
    · exact .inl (by simp only [dataAccess, regOperand, hp])
  | ret _ => exact .inr ⟨_, rfl⟩

/-- Memory after a completed instruction: its one write made, or as before (20_memory.md R34). -/
theorem Completed.mem_cases {sp : Reg} {i : Instr} {s t : State} (h : Completed sp s i t) :
    (∃ a v, dataAccess sp i s = [.write a v] ∧ t.mem = s.mem.write a v) ∨
      (AtMostOneRead (dataAccess sp i s) ∧ t.mem = s.mem) := by
  cases h with
  | push hi hsp => exact .inl ⟨_, _, dataAccess_push_of_pos sp s hi hsp, rfl⟩
  | call hi hsp => exact .inl ⟨_, _, dataAccess_call_of_pos sp s hi hsp, rfl⟩
  | st hp => exact .inl ⟨_, _, dataAccess_st sp s hp, rfl⟩
  | ld hp => exact .inr ⟨.inr ⟨_, dataAccess_ld sp s hp⟩, rfl⟩
  | pop hi hu _ =>
    subst hu
    exact .inr ⟨.inr ⟨_, dataAccess_pop sp s hi⟩, rfl⟩
  | ret _ => exact .inr ⟨.inr ⟨_, rfl⟩, rfl⟩
  | _ => exact .inr ⟨.inl rfl, rfl⟩

/-- Memory after an instruction, completed or not: its one write made, or as before. -/
theorem exec_mem_cases {i : Instr} {s t : State} (h : exec i s = .next t) :
    (∃ a v, dataAccess Config.spReg i s = [.write a v] ∧ t.mem = s.mem.write a v) ∨
      (AtMostOneRead (dataAccess Config.spReg i s) ∧ t.mem = s.mem) := by
  rcases exec_next h with hc | ⟨m, v, hcause, rfl⟩
  · exact hc.mem_cases
  · exact .inr ⟨hcause.dataAccess_atMostOneRead, rfl⟩

/-- Settles O24: an instruction makes its one write or leaves memory as it was. -/
theorem memoryChangesOnlyByTheListedWrite : Obligations.MemoryChangesOnlyByTheListedWrite := by
  unfold Obligations.MemoryChangesOnlyByTheListedWrite
  intro i s t h
  rcases exec_mem_cases h with ⟨b, w, hacc, hmem⟩ | ⟨hacc, hmem⟩
  · rw [hacc, hmem]
    refine ⟨le_rfl, fun a v hw => ?_, fun a hno => ?_⟩
    · cases List.mem_singleton.mp hw
      exact s.mem.read_write_same _ _
    · exact s.mem.read_write_ne w fun hba => hno w (hba ▸ List.mem_singleton_self _)
  · rw [hmem]
    rcases hacc with hacc | ⟨b, hacc⟩ <;> simp [hacc]

/-- A byte that an instruction writes is in memory after it. -/
theorem exec_read_of_write {i : Instr} {s t : State} {a : Nat} {v : Byte} (h : exec i s = .next t)
    (hw : .write a v ∈ dataAccess Config.spReg i s) : t.mem.read a = v := by
  obtain ⟨-, hwritten, -⟩ := memoryChangesOnlyByTheListedWrite i s t h
  exact hwritten a v hw

/-! ## The next fetch -/

/-- Settles O26: the fetch reads the three bytes at the new `pc`, and the byte written is in memory. -/
theorem nextFetchSeesTheStore : Obligations.NextFetchSeesTheStore := by
  unfold Obligations.NextFetchSeesTheStore
  intro i s t a v h hw hpc
  have hread := exec_read_of_write h hw
  refine ⟨⟨t.mem.read t.pc, t.mem.read (t.pc + 1), t.mem.read (t.pc + 2)⟩, ?_, ?_, ?_, ?_⟩
  · rw [State.fetch_eq, if_pos (by omega)]
  all_goals
    rintro rfl
    exact hread

/-! ## The accesses of a step -/

/-- A fetch that succeeds reads the three bytes at `pc` (40_engine.md R59). -/
theorem State.fetchAccesses_of_le {s : State} (h : s.pc ≤ 0xFD) :
    s.fetchAccesses = [.read s.pc, .read (s.pc + 1), .read (s.pc + 2)] := by
  simp [State.fetchAccesses, List.takeWhile, show s.pc < 256 by omega, show s.pc + 1 < 256 by omega,
    show s.pc + 2 < 256 by omega]

/-- A fetch at a `pc` in memory reads the byte there, the rest of the fetch in memory or not. -/
theorem State.read_pc_mem_fetchAccesses {s : State} (h : s.pc ≤ 0xFF) : .read s.pc ∈ s.fetchAccesses := by
  simp [State.fetchAccesses, List.takeWhile, show s.pc < 256 by omega]

theorem State.write_not_mem_fetchAccesses (s : State) (a : Nat) (v : Byte) : .write a v ∉ s.fetchAccesses := by
  simp [State.fetchAccesses]

theorem stepAccesses_of_ok {s : State} {i : Instr} (hrun : s.running = true) (hi : s.fetchDecode = .ok i) :
    stepAccesses s = s.fetchAccesses ++ dataAccess Config.spReg i s := by
  simp [stepAccesses, stepAccessesWith, hrun, hi]

theorem stepAccesses_of_error {s : State} {e : Exn} (hrun : s.running = true) (he : s.fetchDecode = .error e) :
    stepAccesses s = s.fetchAccesses := by
  simp [stepAccesses, stepAccessesWith, hrun, he]

/-! ## Two states that differ only in memory, and there only where nothing reads -/

/-- The two memories agree at every address that these accesses read. -/
def AgreeAtReads (as : List Access) (s s' : State) : Prop := ∀ a, .read a ∈ as → s'.mem.read a = s.mem.read a

theorem AgreeAtReads.symm {as : List Access} {s s' : State} (h : AgreeAtReads as s s') : AgreeAtReads as s' s :=
  fun a ha => (h a ha).symm

theorem AgreeAtReads.append {as bs : List Access} {s s' : State} (h : AgreeAtReads (as ++ bs) s s') :
    AgreeAtReads as s s' ∧ AgreeAtReads bs s s' :=
  ⟨fun a ha => h a (List.mem_append_left _ ha), fun a ha => h a (List.mem_append_right _ ha)⟩

/-- The accesses are one read: the memories agree there. -/
theorem AgreeAtReads.of_eq {as : List Access} {s s' : State} {a : Nat} (h : AgreeAtReads as s s')
    (has : as = [.read a]) : s'.mem.read a = s.mem.read a :=
  h a (has ▸ List.mem_singleton_self _)

theorem SameButMem.symm {s s' : State} (h : SameButMem s s') : SameButMem s' s := by
  obtain ⟨m, rfl⟩ := h
  exact ⟨s.mem, rfl⟩

theorem SameButMem.running_eq {s s' : State} (h : SameButMem s s') : s'.running = s.running := by
  obtain ⟨m, rfl⟩ := h
  rfl

theorem SameButMem.pc_eq {s s' : State} (h : SameButMem s s') : s'.pc = s.pc := by
  obtain ⟨m, rfl⟩ := h
  rfl

/-- Which data access an instruction makes does not depend on memory. -/
theorem SameButMem.dataAccess_eq {s s' : State} (h : SameButMem s s') (sp : Reg) (i : Instr) :
    dataAccess sp i s' = dataAccess sp i s := by
  obtain ⟨m, rfl⟩ := h
  cases i with
  | push a | call a =>
    simp only [dataAccess, State.pushAccess_eq]
    rfl
  | _ => rfl

/-- The fetch and the decode depend on the bytes the fetch reads. -/
theorem SameButMem.fetchDecode_eq {s s' : State} (h : SameButMem s s') (hf : AgreeAtReads s.fetchAccesses s s') :
    s'.fetchDecode = s.fetchDecode := by
  have hfetch : s'.fetch = s.fetch := by
    rw [State.fetch_eq, State.fetch_eq, h.pc_eq]
    split_ifs with hpc
    · rw [State.fetchAccesses_of_le (by omega)] at hf
      rw [hf s.pc (by simp), hf (s.pc + 1) (by simp), hf (s.pc + 2) (by simp)]
    · rfl
  rw [State.fetchDecode, State.fetchDecode, hfetch]

/-- The same exception taken in both states: its record holds no byte of memory but the one at `pc`
(60_exceptions.md R93). -/
theorem SameButMem.takeException {s s' : State} (h : SameButMem s s') (hf : AgreeAtReads s.fetchAccesses s s')
    (e : Exn) : SameButMem (s.takeException e) (s'.takeException e) := by
  have hop : s'.fetchedOp = s.fetchedOp := by
    rw [State.fetchedOp_eq, State.fetchedOp_eq, h.pc_eq]
    split_ifs with hpc
    · rw [hf s.pc (State.read_pc_mem_fetchAccesses hpc)]
    · rfl
  obtain ⟨m, rfl⟩ := h
  exact ⟨m, by simp only [State.takeException, State.recordOf, hop]⟩

/-- Of the causes of an exception only POP's reads memory, the byte at SP, which it has read by then. -/
theorem Cause.of_sameButMem {sp : Reg} {s s' : State} {i : Instr} {m : Space} {v : Int} (h : Cause sp s i m v)
    (hs : SameButMem s s') (hd : AgreeAtReads (dataAccess sp i s) s s') : Cause sp s' i m v := by
  obtain ⟨n, rfl⟩ := hs
  have hbad (j : Instr) : State.badOperand? { s with mem := n } j = s.badOperand? j := by
    cases j <;> rfl
  cases h with
  | operand hb => exact .operand ((hbad i).trans hb)
  | push hb hz => exact .push ((hbad _).trans hb) hz
  | call hb hz => exact .call ((hbad _).trans hb) hz
  | @pop a hb hz =>
    refine .pop ((hbad _).trans hb) ?_
    rw [← hz]
    split_ifs with ha
    · exact congrArg BitVec.toNat (hd.of_eq (dataAccess_pop sp s (ridx_of_val ha)))
    · rfl
  | ret hz => exact .ret hz

/-- A completed instruction depends on no byte of memory but the one it reads: RET, POP and LD read one. -/
theorem Completed.of_sameButMem {sp : Reg} {i : Instr} {s s' t : State} (h : Completed sp s i t)
    (hs : SameButMem s s') (hd : AgreeAtReads (dataAccess sp i s) s s') :
    ∃ t', Completed sp s' i t' ∧ SameButMem t t' := by
  obtain ⟨m, rfl⟩ := hs
  cases h with
  | ret hsp => exact ⟨_, .ret hsp, m, congrArg (State.jumpTo _) (hd.of_eq rfl)⟩
  | @pop _ i _ hi hu hsp =>
    subst hu
    have hread := hd.of_eq (dataAccess_pop sp s hi)
    exact ⟨_, .pop hi (congrArg (State.setReg _ i) hread.symm) hsp, m, rfl⟩
  | @ld _ _ i _ hp =>
    have hread := hd.of_eq (dataAccess_ld sp s hp)
    exact ⟨_, .ld hp, m, congrArg (fun v => ((State.setReg _ i v).advance 3)) hread⟩
  | push hi hsp => exact ⟨_, .push hi hsp, _, rfl⟩
  | call hi hsp => exact ⟨_, .call hi hsp, _, rfl⟩
  | st hp => exact ⟨_, .st hp, _, rfl⟩
  | hlt => exact ⟨_, .hlt, m, rfl⟩
  | prn hi => exact ⟨_, .prn hi, m, rfl⟩
  | pra hi => exact ⟨_, .pra hi, m, rfl⟩
  | jmp hi => exact ⟨_, .jmp hi, m, rfl⟩
  | jeqTaken he hi => exact ⟨_, .jeqTaken he hi, m, rfl⟩
  | jeqNot he => exact ⟨_, .jeqNot he, m, rfl⟩
  | jneTaken he hi => exact ⟨_, .jneTaken he hi, m, rfl⟩
  | jneNot he => exact ⟨_, .jneNot he, m, rfl⟩
  | inc hi => exact ⟨_, .inc hi, m, rfl⟩
  | dec hi => exact ⟨_, .dec hi, m, rfl⟩
  | ldi hi => exact ⟨_, .ldi hi, m, rfl⟩
  | add hp => exact ⟨_, .add hp, m, rfl⟩
  | mul hp => exact ⟨_, .mul hp, m, rfl⟩
  | cmp hp => exact ⟨_, .cmp hp, m, rfl⟩

/-- Two states that differ only in memory, and there not where the fetch or the instruction reads: the instruction completes
in both or raises the same exception in both. -/
theorem SameButMem.exec_sameButMem {i : Instr} {s s' t : State} (hs : SameButMem s s')
    (hf : AgreeAtReads s.fetchAccesses s s') (hd : AgreeAtReads (dataAccess Config.spReg i s) s s')
    (h : exec i s = .next t) : ∃ t', exec i s' = .next t' ∧ SameButMem t t' := by
  rcases exec_next h with hc | ⟨m, v, hcause, rfl⟩
  · obtain ⟨t', hc', ht⟩ := hc.of_sameButMem hs hd
    exact ⟨t', hc'.exec_eq, ht⟩
  · obtain ⟨t', h'⟩ := exec_total i s'
    refine ⟨t', h', ?_⟩
    rcases exec_next h' with hc' | ⟨m', v', hcause', rfl⟩
    · obtain ⟨u, hc, hu⟩ := hc'.of_sameButMem hs.symm (hs.dataAccess_eq Config.spReg i ▸ hd.symm)
      cases h.symm.trans hc.exec_eq
      exact hu.symm
    · obtain ⟨rfl, rfl⟩ := (hcause.of_sameButMem hs hd).unique hcause'
      exact hs.takeException hf _

/-- Settles O25: the fetch, the decode and the instruction depend on memory only where they read it, and both states make
the same data access. -/
theorem stepReadsOnlyTheListedAddresses : Obligations.StepReadsOnlyTheListedAddresses := by
  unfold Obligations.StepReadsOnlyTheListedAddresses
  intro s s' t hs hagree h
  obtain ⟨hrun, ⟨e, he, rfl⟩ | ⟨i, hi, hx⟩⟩ := step_next h
  · rw [stepAccesses_of_error hrun he] at hagree ⊢
    rw [step_of_running (hs.running_eq.trans hrun), hs.fetchDecode_eq hagree, he]
    exact ⟨_, rfl, hs.takeException hagree e, fun a v hw => absurd hw (s.write_not_mem_fetchAccesses a v)⟩
  · rw [stepAccesses_of_ok hrun hi] at hagree ⊢
    obtain ⟨hf, hd⟩ := AgreeAtReads.append hagree
    obtain ⟨t', hx', ht⟩ := hs.exec_sameButMem hf hd hx
    rw [step_of_running (hs.running_eq.trans hrun), hs.fetchDecode_eq hf, hi]
    refine ⟨t', hx', ht, fun a v hw => exec_read_of_write hx' ?_⟩
    rw [hs.dataAccess_eq]
    exact (List.mem_append.mp hw).resolve_left (s.write_not_mem_fetchAccesses a v)

/-! ## Reset and load -/

theorem State.read_resetWith (sp : Reg) (fl : Flags) (a : Nat) : (State.resetWith sp fl).mem.read a = 0 := rfl

/-- Settles O32: a byte sequence written at 0 reads back and leaves the addresses above it at what reset left. -/
theorem loadedImageReadsBack : Obligations.LoadedImageReadsBack := by
  unfold Obligations.LoadedImageReadsBack
  intro sp fl image _
  refine ⟨State.read_resetWith sp fl, fun k hk => ?_, fun a ha => ?_⟩
  · simpa [State.loadImage] using Memory.read_writeBytes image (State.resetWith sp fl).mem 0 k hk
  · rw [State.loadImage, State.setMem_mem, Memory.read_writeBytes_outside image _ (by omega), State.read_resetWith]

end Sys2Proof.Machine
end

section
/-! PROOFS. 30_encoding.md: the decoder reads an instruction exactly from its opcode byte followed by its operand bytes, the
round trips with the encoder that follow, the bits of the opcode, and that well-formed operands raise nothing. -/

namespace Sys2Proof

open Machine

/-! ## The bits of the opcode -/

/-- `op[7:6]` counts the operand bytes (30_encoding.md R51). -/
theorem Instr.opcode_shiftRight_six (i : Instr) : (i.opcode >>> 6).toNat = i.operandBytes.length := by
  cases i <;> simp [Instr.opcode, Instr.operandBytes]

/-- The opcode and the operand bytes make up the length (30_encoding.md R52). -/
theorem Instr.length_eq (i : Instr) : i.length = i.operandBytes.length + 1 := by
  cases i <;> rfl

/-- `op[5]` marks the ALU (30_encoding.md R51). -/
theorem Instr.opcode_bit_five (i : Instr) : i.opcode.getLsbD 5 = i.isAlu := by
  cases i <;> simp [Instr.opcode, Instr.isAlu]

/-- `op[4]` marks the instructions that overwrite `pc` (30_encoding.md R51). -/
theorem Instr.opcode_bit_four (i : Instr) : i.opcode.getLsbD 4 = i.setsPc := by
  cases i <;> simp [Instr.opcode, Instr.setsPc]

/-- The opcode alone fixes the length: its upper bits count the operand bytes. -/
theorem Instr.length_eq_of_opcode_eq {i j : Instr} (h : i.opcode = j.opcode) : i.length = j.length := by
  rw [i.length_eq, j.length_eq, ← i.opcode_shiftRight_six, ← j.opcode_shiftRight_six, h]

theorem Instr.opcode_mem_legalOpcodes (i : Instr) : i.opcode ∈ legalOpcodes := by
  cases i <;> simp [Instr.opcode, legalOpcodes]

/-! ## The decoder -/

/-- What the decoder reads from a latch: the opcode is the whole first byte, and the operand bytes are the first of the bytes
after it, as many as the instruction uses (30_encoding.md R45, R46, R49). -/
theorem opcode_and_operands_of_decode {l : Latch} {i : Instr} (h : decode l = .ok i) :
    i.opcode = l.op ∧ i.operandBytes <+: [l.a, l.b] := by
  unfold decode at h
  split at h <;> cases h
  all_goals
    next hop => exact ⟨hop.symm, by simp [Instr.operandBytes]⟩

/-- The decoder rejects a latch for its opcode byte only, and names that byte (30_encoding.md R53). -/
theorem illegal_opcode_of_decode_error {l : Latch} {e : DecodeError} (h : decode l = .error e) :
    l.op ∉ legalOpcodes ∧ e = .undefinedOpcode l.op := by
  unfold decode at h
  split at h <;> cases h
  have hillegal : l.op ∉ legalOpcodes := by simp_all [legalOpcodes]
  exact ⟨hillegal, rfl⟩

/-- The opcode and the operand bytes an instruction uses are all the decoder looks at (30_encoding.md R48, R50). -/
theorem decode_of_opcode_of_operands {l : Latch} {i : Instr} (hop : i.opcode = l.op)
    (hargs : i.operandBytes <+: [l.a, l.b]) : decode l = .ok i := by
  obtain ⟨op, a, b⟩ := l
  obtain rfl : i.opcode = op := hop
  cases i with
  | hlt | ret => rfl
  | push c | pop c | prn c | pra c | call c | jmp c | jeq c | jne c | inc c | dec c =>
    obtain rfl : c = a := by simpa [Instr.operandBytes] using hargs
    rfl
  | ldi c d | ld c d | st c d | add c d | mul c d | cmp c d =>
    obtain ⟨rfl, rfl⟩ : c = a ∧ d = b := by simpa [Instr.operandBytes] using hargs
    rfl

/-- The decoder in one line: it reads `i` exactly from the opcode of `i` followed by the operand bytes of `i`. -/
theorem decode_eq_ok_iff {l : Latch} {i : Instr} :
    decode l = .ok i ↔ i.opcode = l.op ∧ i.operandBytes <+: [l.a, l.b] :=
  ⟨opcode_and_operands_of_decode, fun ⟨hop, hargs⟩ => decode_of_opcode_of_operands hop hargs⟩

/-- A legal opcode byte decodes whatever bytes follow it (30_encoding.md R49). -/
theorem exists_decode_iff_legal (l : Latch) : (∃ i, decode l = .ok i) ↔ l.op ∈ legalOpcodes := by
  constructor
  · rintro ⟨i, hi⟩
    obtain ⟨hop, -⟩ := decode_eq_ok_iff.mp hi
    exact hop ▸ i.opcode_mem_legalOpcodes
  · intro hlegal
    cases hd : decode l with
    | ok i => exact ⟨i, rfl⟩
    | error e => exact absurd hlegal (illegal_opcode_of_decode_error hd).left

/-- The latch of an encoding holds the opcode, then the operand bytes. -/
theorem operandBytes_prefix_ofBytes_encode (i : Instr) (tail : List Byte) :
    i.operandBytes <+: [(Latch.ofBytes (encode i ++ tail)).a, (Latch.ofBytes (encode i ++ tail)).b] := by
  cases i <;> simp [Latch.ofBytes, encode, Instr.operandBytes]

/-! ## The statements -/

/-- Settles O2: the latch of the encoding holds the opcode and the operand bytes, which is all the decoder looks at. -/
theorem decodeOfEncodeIsIdentity : Obligations.DecodeOfEncodeIsIdentity := by
  unfold Obligations.DecodeOfEncodeIsIdentity
  exact fun i tail => decode_of_opcode_of_operands rfl (operandBytes_prefix_ofBytes_encode i tail)

/-- Settles O3: a prefix of the latch's operand bytes is their first ones, as many as it is long. -/
theorem encodeOfDecodeIsPrefix : Obligations.EncodeOfDecodeIsPrefix := by
  unfold Obligations.EncodeOfDecodeIsPrefix
  intro l i h
  obtain ⟨hop, hargs⟩ := decode_eq_ok_iff.mp h
  refine ⟨?_, by rw [i.length_eq]; omega, instr_length_le_three i⟩
  rw [encode, i.length_eq, List.take_succ_cons, ← List.prefix_iff_eq_take.mp hargs, hop]

/-- Settles O4: an instruction that decodes has the latch's first byte as its opcode, and the opcode fixes the length. -/
theorem opcodeByteAloneSelects : Obligations.OpcodeByteAloneSelects := by
  unfold Obligations.OpcodeByteAloneSelects
  refine fun l => ⟨exists_decode_iff_legal l, fun hillegal => ?_, fun i hi => ?_⟩
  · cases hd : decode l with
    | ok i => exact absurd ((exists_decode_iff_legal l).mp ⟨i, hd⟩) hillegal
    | error e => rw [(illegal_opcode_of_decode_error hd).right]
  · obtain ⟨hop, -⟩ := decode_eq_ok_iff.mp hi
    refine ⟨hop, fun a b => ?_⟩
    obtain ⟨j, hj⟩ := (exists_decode_iff_legal ⟨l.op, a, b⟩).mpr (hop ▸ i.opcode_mem_legalOpcodes)
    obtain ⟨hjop, -⟩ := decode_eq_ok_iff.mp hj
    have hsame : j.opcode = i.opcode := hjop.trans hop.symm
    exact ⟨j, hj, hsame, Instr.length_eq_of_opcode_eq hsame⟩

/-- Settles O5: operand bytes that are none, or one, are a prefix of the latch's whatever follows them. -/
theorem unusedOperandBytesAreIgnored : Obligations.UnusedOperandBytesAreIgnored := by
  unfold Obligations.UnusedOperandBytesAreIgnored
  intro l i h
  obtain ⟨hop, hargs⟩ := decode_eq_ok_iff.mp h
  have htake := List.prefix_iff_eq_take.mp hargs
  rw [i.length_eq]
  refine ⟨fun hlen a b => ?_, fun hlen b => ?_⟩
  · have hnone : i.operandBytes = [] := List.eq_nil_of_length_eq_zero (by omega)
    exact decode_of_opcode_of_operands hop (hnone ▸ List.nil_prefix)
  · have hone : i.operandBytes = [l.a] := by
      rw [htake, show i.operandBytes.length = 1 by omega, List.take_one, List.head?_cons, Option.toList_some]
    exact decode_of_opcode_of_operands hop (hone ▸ List.prefix_append [l.a] [b])

/-- Settles O6: the bits per instruction; equal opcodes and operands are equal encodings, which decode to one instruction. -/
theorem opcodeBitsCountOperandsAndMarkGroups : Obligations.OpcodeBitsCountOperandsAndMarkGroups := by
  unfold Obligations.OpcodeBitsCountOperandsAndMarkGroups
  intro i j
  refine ⟨i.opcode_shiftRight_six, ?_, i.opcode_bit_five, i.opcode_bit_four, fun hop hargs => ?_⟩
  · rw [i.length_eq, i.opcode_shiftRight_six]
  · have henc : encode i = encode j := by rw [encode, encode, hop, hargs]
    have hi := decodeOfEncodeIsIdentity i []
    rw [henc, decodeOfEncodeIsIdentity j []] at hi
    exact (Except.ok.inj hi).symm

/-- Settles O1, by running the decoder on the words. -/
theorem opcodeMapWordsDecode : Obligations.OpcodeMapWordsDecode := by
  unfold Obligations.OpcodeMapWordsDecode
  decide

/-! ## Well-formed operands -/

/-- No register operand of a well-formed instruction is a bad one (30_encoding.md R47, R55). -/
theorem Instr.badOperand?_eq_none_of_wellFormed {i : Instr} (h : i.wellFormed = true) (s : State) : s.badOperand? i = none := by
  refine Option.eq_none_iff_forall_ne_some.mpr fun v hv => ?_
  obtain ⟨-, hmem, hge⟩ := State.badOperand?_some hv
  have hnames : namesReg v = true := List.all_eq_true.mp h v hmem
  simp [namesReg_of_ge hge] at hnames

/-- Settles O17: a record of the Register space is of a bad operand, and a completed instruction writes no record. -/
theorem wellFormedNeverRaisesRegisterRange : Obligations.WellFormedNeverRaisesRegisterRange := by
  unfold Obligations.WellFormedNeverRaisesRegisterRange
  intro i s t r hwf h hr hspace
  rcases exec_next h with hc | ⟨m, v, hcause, rfl⟩
  · exact hc.fault_eq ▸ hr
  · cases hr
    obtain rfl : m = .register := Option.some.inj hspace
    cases hcause with
    | operand hbad => simp [Instr.badOperand?_eq_none_of_wellFormed hwf] at hbad

end Sys2Proof
end

section
/-! PROOFS. 40_engine.md: what the fetch reads and raises, what a step of a running core does in each case of the fetch and
the decode, and where a run ends. -/

namespace Sys2Proof.Machine

/-! ## Fetch and decode, case by case -/

/-- Every access of the fetch is the read of a byte that exists, at `pc` or above (20_memory.md R33, decision D13). -/
theorem State.fetchAccesses_in_memory {s : State} {x : Access} (h : x ∈ s.fetchAccesses) :
    ∃ a, x = .read a ∧ s.pc ≤ a ∧ a ≤ 0xFF := by
  obtain ⟨a, ha, rfl⟩ := List.mem_map.mp h
  have hlt : a < 256 := by simpa using List.mem_takeWhile_imp ha
  have hfetched : a ∈ [s.pc, s.pc + 1, s.pc + 2] := (List.takeWhile_sublist _).subset ha
  have hge : s.pc ≤ a := by
    simp only [List.mem_cons, List.not_mem_nil, or_false] at hfetched
    omega
  exact ⟨a, rfl, hge, by omega⟩

theorem State.fetch_of_le {s : State} (h : s.pc ≤ 0xFD) :
    s.fetch = .ok ⟨s.mem.read s.pc, s.mem.read (s.pc + 1), s.mem.read (s.pc + 2)⟩ := by
  rw [State.fetch_eq, if_pos (by omega)]

/-- The fetch fault, whatever bytes lie there (40_engine.md R60). -/
theorem State.fetchDecode_of_gt {s : State} (h : 0xFD < s.pc) :
    s.fetchDecode = .error (.addressOutOfRange .memory (max s.pc 256 : Nat)) := by
  cases hf : s.fetchDecode with
  | ok i =>
    obtain ⟨hpc, -⟩ := State.fetchDecode_ok hf
    omega
  | error e =>
    rcases State.fetchDecode_error hf with ⟨-, rfl⟩ | ⟨hpc, -⟩
    · rfl
    · omega

theorem State.fetchDecode_of_decode {s : State} {i : Instr} (hpc : s.pc ≤ 0xFD)
    (hd : decode ⟨s.mem.read s.pc, s.mem.read (s.pc + 1), s.mem.read (s.pc + 2)⟩ = .ok i) : s.fetchDecode = .ok i := by
  simp only [State.fetchDecode, State.fetch_of_le hpc, ok_bind, decodeLatch, hd]

/-- An opcode byte that is none of the 18 is UndefinedOpcode where the fetch succeeds (40_engine.md R62). -/
theorem State.fetchDecode_of_illegal {s : State} (hpc : s.pc ≤ 0xFD) (hop : s.mem.read s.pc ∉ legalOpcodes) :
    s.fetchDecode = .error .undefinedOpcode := by
  cases hf : s.fetchDecode with
  | ok i =>
    obtain ⟨-, hd⟩ := State.fetchDecode_ok hf
    exact absurd ((exists_decode_iff_legal _).mp ⟨i, hd⟩) hop
  | error e =>
    rcases State.fetchDecode_error hf with ⟨hgt, -⟩ | ⟨-, rfl, -⟩
    · omega
    · rfl

/-! ## A step of a running core -/

theorem step_of_fetchDecode_ok {s : State} {i : Instr} (hrun : s.running = true) (hi : s.fetchDecode = .ok i) :
    step s = exec i s := by
  simp only [step_of_running hrun, hi]

theorem step_of_fetchDecode_error {s : State} {e : Exn} (hrun : s.running = true) (he : s.fetchDecode = .error e) :
    step s = .next (s.takeException e) := by
  simp only [step_of_running hrun, he]

/-- Settles O8: the fetch reads come first, and above 0xFD no data access follows them, since nothing is decoded. -/
theorem stepReadsThreeBytesFirst : Obligations.StepReadsThreeBytesFirst := by
  unfold Obligations.StepReadsThreeBytesFirst
  refine fun s hrun => ⟨fun hpc => ⟨?_, State.fetch_of_le hpc⟩, fun hpc x hx => ?_⟩
  · have hreads := State.fetchAccesses_of_le hpc
    cases hf : s.fetchDecode with
    | ok i =>
      rw [stepAccesses_of_ok hrun hf, hreads]
      rfl
    | error e =>
      rw [stepAccesses_of_error hrun hf, hreads]
      rfl
  · rw [stepAccesses_of_error hrun (State.fetchDecode_of_gt hpc)] at hx
    exact State.fetchAccesses_in_memory hx

/-- Settles O9: the step takes the fetch fault, and its record at a `pc` of at most 0x100 is the one stated. -/
theorem fetchAboveFdFaults : Obligations.FetchAboveFdFaults := by
  unfold Obligations.FetchAboveFdFaults
  intro s hrun hgt hle
  have hvalue : max s.pc 256 = 0x100 := by omega
  have hop : s.fetchedOp = if s.pc = 0x100 then none else some (s.mem.read s.pc) := by
    rw [State.fetchedOp_eq]
    by_cases htop : s.pc = 0x100
    · rw [if_pos htop, if_neg (by omega)]
    · rw [if_neg htop, if_pos (by omega)]
  rw [step_of_fetchDecode_error hrun (State.fetchDecode_of_gt hgt), hvalue, State.takeException, State.recordOf, hop]
  rfl

/-- Settles O10: the step takes UndefinedOpcode, and its record holds the byte at `pc`. -/
theorem undefinedOpcodeIsRecorded : Obligations.UndefinedOpcodeIsRecorded := by
  unfold Obligations.UndefinedOpcodeIsRecorded
  intro s hrun hpc hillegal
  have hop : s.fetchedOp = some (s.mem.read s.pc) := by rw [State.fetchedOp_eq, if_pos (by omega)]
  rw [step_of_fetchDecode_error hrun (State.fetchDecode_of_illegal hpc hillegal), State.takeException, State.recordOf, hop]
  rfl

/-- Settles O11: the bytes at `pc` decode, so the step dispatches to the handler. -/
theorem stepRunsDecodedInstruction : Obligations.StepRunsDecodedInstruction := by
  unfold Obligations.StepRunsDecodedInstruction
  exact fun s i hrun hpc hd => step_of_fetchDecode_ok hrun (State.fetchDecode_of_decode hpc hd)

/-- Settles O12: the fetch or the decode raises, or every handler answers: it completes or raises. -/
theorem runningStateAlwaysSteps : Obligations.RunningStateAlwaysSteps := by
  unfold Obligations.RunningStateAlwaysSteps
  intro s hrun
  cases hf : s.fetchDecode with
  | error e => exact ⟨_, step_of_fetchDecode_error hrun hf, .inr ⟨e, rfl⟩⟩
  | ok i =>
    obtain ⟨t, ht⟩ := exec_total i s
    refine ⟨t, (step_of_fetchDecode_ok hrun hf).trans ht, ?_⟩
    rcases exec_next ht with hc | ⟨m, v, -, ht⟩
    · exact .inl hc.fault_eq
    · exact .inr ⟨_, ht⟩

/-- Settles O7: a step that answers a next state was taken by a running core, and where `running` is clear the reason for no
step is the fault record or its absence. -/
theorem noStepUnlessRunning : Obligations.NoStepUnlessRunning := by
  unfold Obligations.NoStepUnlessRunning
  refine fun s => ⟨fun t h => ?_, fun hstop hfault => ?_, fun r hstop hfault => ?_⟩
  · obtain ⟨hrun, -⟩ := step_next h
    exact hrun
  · exact step_fault_iff.mpr (by simp [State.noStep, hstop, hfault])
  · exact step_fault_iff.mpr (by simp [State.noStep, hstop, hfault])

/-! ## Runs -/

section
variable {st : State → Answer} {s t : State} {fuel : Nat}

/-- The induction over a run that ends in `t`, from its end backwards. -/
theorem runBy_induction {motive : Nat → State → Prop} (stopped : t.running = false → ∀ n, motive n t)
    (stepped : ∀ {n s u}, s.running = true → st s = .next u → motive n u → motive (n + 1) s)
    (h : runBy st fuel s = some t) : motive fuel s := by
  induction fuel generalizing s with
  | zero =>
    rcases runBy_some h with ⟨hstop, rfl⟩ | ⟨n, u, hn, -⟩
    · exact stopped hstop 0
    · cases hn
  | succ n ih =>
    rcases runBy_some h with ⟨hstop, rfl⟩ | ⟨_, u, ⟨⟩, hrun, hsu, hu⟩
    · exact stopped hstop (n + 1)
    · exact stepped hrun hsu (ih hu)

/-- A run ends only in a stopped core (40_engine.md R65). -/
theorem running_of_runBy_some (h : runBy st fuel s = some t) : t.running = false :=
  runBy_induction (motive := fun _ _ => t.running = false) (fun hstop _ => hstop) (fun _ _ ih => ih) h

/-- More fuel never changes the end of a run. -/
theorem runBy_add_of_some (h : runBy st fuel s = some t) (more : Nat) : runBy st (fuel + more) s = some t := by
  refine runBy_induction (motive := fun n s => runBy st (n + more) s = some t) (fun hstop n => ?_)
    (fun {n s u} hrun hsu ih => ?_) h
  · exact runBy_of_stopped hstop (n + more)
  · rw [Nat.add_right_comm, runBy_of_next hrun hsu, ih]

/-- A run keeps what every step keeps. -/
theorem runBy_keeps {P : State → Prop} (hstep : ∀ s t, P s → st s = .next t → P t) (h : runBy st fuel s = some t) :
    P s → P t :=
  runBy_induction (motive := fun _ s => P s → P t) (fun _ _ => id) (fun _ hsu ih hs => ih (hstep _ _ hs hsu)) h

/-- A running core that steps to the state it is in runs forever: the core has no timeout (40_engine.md R65). -/
theorem runBy_eq_none_of_self_step (hrun : s.running = true) (hstep : st s = .next s) (fuel : Nat) :
    runBy st fuel s = none := by
  induction fuel with
  | zero => exact runBy_zero_of_running hrun
  | succ n ih => rw [runBy_of_next hrun hstep, ih]

end

/-- Settles O35, each clause by the induction over the run; every step keeps the invariant (O28). -/
theorem runEndsOnlyStopped : Obligations.RunEndsOnlyStopped := by
  unfold Obligations.RunEndsOnlyStopped
  exact fun fuel s t h => ⟨running_of_runBy_some h, runBy_add_of_some h, runBy_keeps stepKeepsInvariant h⟩

theorem State.jumpTo_self {s : State} {v : Byte} (h : v.toNat = s.pc) : s.jumpTo v = s := by
  rw [State.jumpTo, State.setPc, h]

/-- A JMP to its own address changes nothing (43_control.md R80). -/
theorem exec_jmp_self {a : Byte} {i : Reg} {s : State} (ha : a.toNat = i.val) (htarget : (s.getReg i).toNat = s.pc) :
    exec (.jmp a) s = .next s := by
  rw [(Completed.jmp (ridx_of_val ha)).exec_eq, State.jumpTo_self htarget]

/-- Settles O36: the bytes at `pc` decode to the JMP, which leaves the state as it is, so no fuel ends the run. -/
theorem jumpToItselfRunsForever : Obligations.JumpToItselfRunsForever := by
  unfold Obligations.JumpToItselfRunsForever
  intro s i hrun hpc hop ha htarget
  have hd : decode ⟨s.mem.read s.pc, s.mem.read (s.pc + 1), s.mem.read (s.pc + 2)⟩ = .ok (.jmp (s.mem.read (s.pc + 1))) :=
    decode_of_opcode_of_operands hop.symm (List.prefix_append [_] [_])
  have hstep : step s = .next s := (stepRunsDecodedInstruction s _ hrun hpc hd).trans (exec_jmp_self ha htarget)
  exact ⟨hstep, runBy_eq_none_of_self_step hrun hstep⟩

end Sys2Proof.Machine
end

section
/-! PROOFS. 41_alu.md: an instruction with a register operand out of range raises for the first such operand, what the ALU's
five instructions write and leave unchanged, and that no step raises UnsupportedALUOperation. -/

namespace Sys2Proof.Machine

/-! ## Operands out of range -/

/-- An instruction completes only if every register operand it uses names a register (30_encoding.md R47, decision D7). -/
theorem Completed.badOperand?_eq_none {sp : Reg} {i : Instr} {s t : State} (h : Completed sp s i t) :
    s.badOperand? i = none := by
  refine Option.eq_none_iff_forall_ne_some.mpr fun v hbad => ?_
  obtain ⟨huses, hmem, hge⟩ := State.badOperand?_some hbad
  have hone {a : Byte} {k : Reg} (hk : ridx a = .ok k) (hv : v ∈ [a]) : False := by
    obtain rfl := List.mem_singleton.mp hv
    simp [ridx_of_ge hge] at hk
  have htwo {a b : Byte} {p : Reg × Reg} (hp : regPair a b = .ok p) (hv : v ∈ [a, b]) : False := by
    obtain ⟨e, he⟩ := regPair_error_of_mem hge hv
    simp [he] at hp
  cases h with
  | hlt | ret _ => exact absurd hmem List.not_mem_nil
  | push hk _ | pop hk _ _ | prn hk | pra hk | call hk _ | jmp hk | jeqTaken _ hk | jneTaken _ hk | inc hk | dec hk
  | ldi hk => exact hone hk hmem
  | jeqNot he | jneNot he => simp [State.usesOperands, he] at huses
  | ld hp | st hp | add hp | mul hp | cmp hp => exact htwo hp hmem

/-- An instruction with a bad operand raises for it, whatever else it would raise for (60_exceptions.md R92, R95). -/
theorem exec_of_badOperand {i : Instr} {s : State} {v : Byte} (h : s.badOperand? i = some v) :
    exec i s = .next (s.takeException (.addressOutOfRange .register v.toNat)) := by
  obtain ⟨t, ht⟩ := exec_total i s
  rcases exec_next ht with hc | ⟨m, w, hcause, rfl⟩
  · simp [hc.badOperand?_eq_none] at h
  · obtain ⟨rfl, rfl⟩ := hcause.unique (.operand h)
    exact ht

theorem exec_of_one_operand_ge {i : Instr} {s : State} {a : Byte} (hu : s.usesOperands i = true)
    (hm : i.regOperands = [a]) (ha : 8 ≤ a.toNat) :
    exec i s = .next (s.takeException (.addressOutOfRange .register a.toNat)) :=
  exec_of_badOperand (by rw [State.badOperand?_one hu hm, namesReg_of_ge ha]; rfl)

/-- The exceptions of an instruction of format F3RR: A is checked before B (60_exceptions.md R95). -/
theorem exec_of_two_operands_ge {i : Instr} {s : State} {a b : Byte} (hu : s.usesOperands i = true)
    (hm : i.regOperands = [a, b]) :
    (8 ≤ a.toNat → exec i s = .next (s.takeException (.addressOutOfRange .register a.toNat))) ∧
    (a.toNat < 8 → 8 ≤ b.toNat → exec i s = .next (s.takeException (.addressOutOfRange .register b.toNat))) := by
  have hbad := State.badOperand?_two hu hm
  refine ⟨fun ha => exec_of_badOperand ?_, fun ha hb => exec_of_badOperand ?_⟩
  · rw [hbad, namesReg_of_ge ha]; rfl
  · rw [hbad, namesReg_of_lt ha, namesReg_of_ge hb]; rfl

/-! ## Writing one register -/

/-- What writing `x[i]` and advancing leaves unchanged: all but `x[i]` and `pc`. -/
theorem State.setReg_advance_frame (s : State) (i : Reg) (v : Byte) (n : Nat) :
    KeepsRegsExcept [i] s ((s.setReg i v).advance n) ∧ KeepsMemExcept [] s ((s.setReg i v).advance n) ∧
      KeepsControl s ((s.setReg i v).advance n) ∧ ((s.setReg i v).advance n).out = s.out :=
  ⟨(KeepsRegsExcept.refl [i] s).setReg (by simp) v, KeepsMemExcept.refl [] s, ⟨rfl, rfl, rfl⟩, rfl⟩

theorem State.getReg_setReg_advance (s : State) (i : Reg) (v : Byte) (n : Nat) :
    ((s.setReg i v).advance n).getReg i = v := by
  rw [State.advance_getReg, State.getReg_setReg_self]

/-! ## The five instructions -/

/-- Settles O37: the completed ADD writes the sum as a byte, and only `x[a]` and `pc` change. -/
theorem addWritesSumModulo256 : Obligations.AddWritesSumModulo256 := by
  unfold Obligations.AddWritesSumModulo256
  refine fun a b s => ⟨rfl, fun i j ha hb => ?_, exec_of_two_operands_ge rfl rfl⟩
  refine ⟨_, (Completed.add (regPair_of_val ha hb)).exec_eq, ?_, rfl, s.setReg_advance_frame i _ 3⟩
  rw [State.getReg_setReg_advance, BitVec.toNat_ofNat]

/-- Settles O38: the completed MUL writes the product as a byte, and only `x[a]` and `pc` change. -/
theorem mulWritesProductModulo256 : Obligations.MulWritesProductModulo256 := by
  unfold Obligations.MulWritesProductModulo256
  refine fun a b s => ⟨rfl, fun i j ha hb => ?_, exec_of_two_operands_ge rfl rfl⟩
  refine ⟨_, (Completed.mul (regPair_of_val ha hb)).exec_eq, ?_, rfl, s.setReg_advance_frame i _ 3⟩
  rw [State.getReg_setReg_advance, BitVec.toNat_ofNat]

/-- Settles O39: the completed INC writes the successor as a byte, and only `x[a]` and `pc` change. -/
theorem incAddsOneModulo256 : Obligations.IncAddsOneModulo256 := by
  unfold Obligations.IncAddsOneModulo256
  refine fun a s => ⟨fun x => rfl, fun i ha => ?_, exec_of_one_operand_ge rfl rfl⟩
  refine ⟨_, (Completed.inc (ridx_of_val ha)).exec_eq, ?_, rfl, s.setReg_advance_frame i _ 2⟩
  rw [State.getReg_setReg_advance, BitVec.toNat_ofNat]

/-- Narrowing an integer to a byte takes its non-negative remainder (00_scope.md R6). -/
theorem toNat_ofInt_eq_emod (z : Int) : ((BitVec.ofInt 8 z).toNat : Int) = z % 256 := by
  rw [BitVec.toNat_ofInt, Int.toNat_of_nonneg (Int.emod_nonneg z (by decide))]
  rfl

/-- Settles O40: the completed DEC writes the predecessor, an integer that may be -1, as a byte, and only `x[a]` and `pc`
change. -/
theorem decSubtractsOneModulo256 : Obligations.DecSubtractsOneModulo256 := by
  unfold Obligations.DecSubtractsOneModulo256
  refine fun a s => ⟨fun x => rfl, fun i ha => ?_, exec_of_one_operand_ge rfl rfl⟩
  refine ⟨_, (Completed.dec (ridx_of_val ha)).exec_eq, ?_, rfl, s.setReg_advance_frame i _ 2⟩
  rw [State.getReg_setReg_advance, toNat_ofInt_eq_emod]

section
variable (u v : Byte)

/-- The three flags of a comparison (41_alu.md R72, decision D18). -/
theorem compareFlags_e_iff : (compareFlags u v).e = true ↔ u = v :=
  decide_eq_true_iff.trans BitVec.toNat_inj

theorem compareFlags_l_iff : (compareFlags u v).l = true ↔ u.toNat < v.toNat := decide_eq_true_iff

theorem compareFlags_g_iff : (compareFlags u v).g = true ↔ v.toNat < u.toNat := decide_eq_true_iff

end

/-- Settles O41: the completed CMP writes the flags of the comparison, and only they and `pc` change. -/
theorem cmpSetsUnsignedComparisonFlags : Obligations.CmpSetsUnsignedComparisonFlags := by
  unfold Obligations.CmpSetsUnsignedComparisonFlags
  refine fun a b s => ⟨rfl, fun i j ha hb => ?_, exec_of_two_operands_ge rfl rfl⟩
  exact ⟨_, (Completed.cmp (regPair_of_val ha hb)).exec_eq, compareFlags_e_iff _ _, compareFlags_l_iff _ _,
    compareFlags_g_iff _ _, rfl, KeepsRegsExcept.refl [] s, KeepsMemExcept.refl [] s, rfl, rfl, rfl⟩

/-! ## An unknown tag -/

/-- Settles O16: a fetch or decode raises AddressOutOfRange or UndefinedOpcode, an instruction raises AddressOutOfRange only,
and a completed one keeps the fault record. -/
theorem unsupportedAluOperationIsNeverRaised : Obligations.UnsupportedAluOperationIsNeverRaised := by
  unfold Obligations.UnsupportedAluOperationIsNeverRaised
  refine ⟨fun tag u v => rfl, fun s t r h hr hname => ?_⟩
  obtain ⟨-, ⟨e, he, rfl⟩ | ⟨i, -, hx⟩⟩ := step_next h
  · cases hr
    rcases State.fetchDecode_error he with ⟨-, rfl⟩ | ⟨-, rfl, -⟩
    · cases hname
    · cases hname
  · rcases exec_next hx with hc | ⟨m, v, -, rfl⟩
    · exact hc.fault_eq ▸ hr
    · cases hr
      cases hname

end Sys2Proof.Machine
end

section
/-! PROOFS. 42_stack.md: the four stack instructions at the model's SP_REG, as the case of `stackInstructionsFollowSpReg`,
and the two pairs PUSH, POP and CALL, RET, whose moves of the stack pointer undo each other. -/

namespace Sys2Proof.Machine

/-! ## The stack instructions at the model's SP_REG

On each of the four, `exec` is `execWith Config.spReg` by definition (`exec_eq_execWith`), so the clauses of
`stackInstructionsFollowSpReg` at `Config.spReg` are those wanted here. -/

/-- Settles O42: the clauses on PUSH for every SP_REG, and an operand above 7, which raises before the stack bound. -/
theorem pushStoresBelowStackPointer : Obligations.PushStoresBelowStackPointer := by
  unfold Obligations.PushStoresBelowStackPointer
  refine fun a s => ⟨fun x => rfl, fun i ha hsp => ?_, fun ha hsp => ?_, exec_of_one_operand_ge rfl rfl⟩
  · obtain ⟨hdown, -⟩ := stackInstructionsFollowSpReg Config.spReg i a s ha
    obtain ⟨hpush, -⟩ := hdown hsp
    exact hpush
  · exact execWith_push_of_zero (i := ⟨a.toNat, ha⟩) rfl hsp

/-- Settles O43: the clauses on POP for every SP_REG, and an operand above 7, which raises first. -/
theorem popLoadsFromStackPointer : Obligations.PopLoadsFromStackPointer := by
  unfold Obligations.PopLoadsFromStackPointer
  refine fun a s => ⟨fun x => rfl, fun i v sp1 ha => ?_, exec_of_one_operand_ge rfl rfl⟩
  obtain ⟨-, -, hpop, -, -⟩ := stackInstructionsFollowSpReg Config.spReg i a s ha
  exact hpop v sp1

/-- Settles O44: the clauses on CALL for every SP_REG, and an operand above 7, which raises before the stack bound. -/
theorem callPushesReturnAddressAndJumps : Obligations.CallPushesReturnAddressAndJumps := by
  unfold Obligations.CallPushesReturnAddressAndJumps
  refine fun a s => ⟨fun x => rfl, fun i ha hsp => ?_, fun ha hsp => ?_, exec_of_one_operand_ge rfl rfl⟩
  · obtain ⟨hdown, -⟩ := stackInstructionsFollowSpReg Config.spReg i a s ha
    obtain ⟨-, hcall⟩ := hdown hsp
    exact hcall
  · exact execWith_call_of_zero (i := ⟨a.toNat, ha⟩) rfl hsp

/-- Settles O45: the clauses on RET for every SP_REG, which name no operand, so any register serves. -/
theorem retJumpsToPoppedByte : Obligations.RetJumpsToPoppedByte := by
  unfold Obligations.RetJumpsToPoppedByte
  intro s
  obtain ⟨-, -, -, hret, htop⟩ := stackInstructionsFollowSpReg Config.spReg 0 0 s rfl
  exact ⟨fun x y => rfl, hret, htop⟩

/-! ## Frames of two instructions in a row -/

theorem KeepsRegsExcept.mono {ws vs : List Reg} {s t : State} (h : KeepsRegsExcept ws s t) (hsub : ws ⊆ vs) :
    KeepsRegsExcept vs s t :=
  fun k hk => h k fun hmem => hk (hsub hmem)

theorem KeepsRegsExcept.trans {ws : List Reg} {s t u : State} (hst : KeepsRegsExcept ws s t)
    (htu : KeepsRegsExcept ws t u) : KeepsRegsExcept ws s u :=
  fun k hk => (htu k hk).trans (hst k hk)

/-- A register that is back at its value is no exception of the frame. -/
theorem KeepsRegsExcept.of_restored {ws : List Reg} {r : Reg} {s t : State} (h : KeepsRegsExcept (r :: ws) s t)
    (hr : t.getReg r = s.getReg r) : KeepsRegsExcept ws s t := by
  intro k hk
  by_cases hkr : k = r
  · rw [hkr, hr]
  · exact h k (by simp [hkr, hk])

/-- A push moves the stack pointer down and a pop moves it up again (42_stack.md R74). -/
theorem getReg_eq_of_down_up {s t u : State} {sp : Reg} (hsp : 1 ≤ (s.getReg sp).toNat)
    (hdown : (t.getReg sp).toNat = (s.getReg sp).toNat - 1) (hup : (u.getReg sp).toNat = (t.getReg sp).toNat + 1) :
    u.getReg sp = s.getReg sp :=
  BitVec.eq_of_toNat_eq (by omega)

/-- After a push the stack pointer is below 0xFF, so a pop can move it up (42_stack.md R74, decision D8). -/
theorem sp_lt_of_down {s t : State} {sp : Reg} (hsp : 1 ≤ (s.getReg sp).toNat)
    (hdown : (t.getReg sp).toNat = (s.getReg sp).toNat - 1) : (t.getReg sp).toNat < 0xFF := by
  have hlt := (s.getReg sp).isLt
  omega

/-! ## PUSH then POP, CALL then RET -/

/-- Settles O46: the POP reads where the PUSH wrote, since SP moved down by one, and moves SP back. -/
theorem pushThenPopReproducesValue : Obligations.PushThenPopReproducesValue := by
  unfold Obligations.PushThenPopReproducesValue
  intro s sp i j a b ha hb hi hj hsp
  obtain ⟨hpush, -⟩ := stackInstructionsFollowSpReg sp i a s ha
  obtain ⟨⟨t, hst, hdown, hpushed, hpct, hregst, -, -, -⟩, -⟩ := hpush hsp
  obtain ⟨-, -, hpops, -, -⟩ := stackInstructionsFollowSpReg sp j b t hb
  obtain ⟨hpop, -⟩ := hpops _ (t.getReg sp) rfl (if_neg hj).symm
  obtain ⟨u, htu, hpopped, hup, hpcu, hregsu, hmemu, -, -⟩ := hpop (sp_lt_of_down hsp hdown)
  have hvalue : t.mem.read ((s.getReg sp).toNat - 1) = s.getReg i := by rw [hpushed, hregst i (by simp [hi])]
  have hback : u.getReg sp = s.getReg sp := getReg_eq_of_down_up hsp hdown hup
  have hframe : KeepsRegsExcept [sp, j] s u := (hregst.mono (by simp)).trans (hregsu.mono (by simp))
  refine ⟨t, u, hst, htu, ?_, hback, ?_, by rw [hpcu, hpct], hframe.of_restored hback⟩
  · rw [hpopped hj, hdown, hvalue]
  · rw [hmemu _ List.not_mem_nil, hvalue]

/-- Settles O47: the RET reads the return address where the CALL wrote it, and moves SP back. -/
theorem callThenRetResumesAfterCall : Obligations.CallThenRetResumesAfterCall := by
  unfold Obligations.CallThenRetResumesAfterCall
  intro s sp i a ha hsp hpc
  obtain ⟨hcall, -⟩ := stackInstructionsFollowSpReg sp i a s ha
  obtain ⟨-, t, hst, hdown, hreturn, -, hregst, -, -, -⟩ := hcall hsp
  obtain ⟨-, -, -, hret, -⟩ := stackInstructionsFollowSpReg sp i a t ha
  obtain ⟨u, htu, hpcu, hup, hregsu, -, -, -⟩ := hret (sp_lt_of_down hsp hdown)
  have hback : u.getReg sp = s.getReg sp := getReg_eq_of_down_up hsp hdown hup
  exact ⟨t, u, hst, htu, by rw [hpcu, hdown, hreturn hpc], (hregst.trans hregsu).of_restored hback⟩

end Sys2Proof.Machine
end

section
/-! PROOFS. 43_control.md: where JMP, JEQ and JNE go, that they move `pc` only, and that a jump not taken leaves its operand
unchecked. -/

namespace Sys2Proof.Machine

/-- What moving `pc` leaves unchanged, a jump (`State.jumpTo`) and an advance (`State.advance`) alike: all but `pc`
(43_control.md R79). -/
theorem State.setPc_frame (s : State) (t : Nat) :
    KeepsRegsExcept [] s (s.setPc t) ∧ KeepsMemExcept [] s (s.setPc t) ∧ KeepsControl s (s.setPc t) ∧
      (s.setPc t).out = s.out :=
  ⟨KeepsRegsExcept.refl [] s, KeepsMemExcept.refl [] s, ⟨rfl, rfl, rfl⟩, rfl⟩

/-- Settles O48: the completed JMP moves `pc` only, so a JMP to its own address (`exec_jmp_self`) changes nothing. -/
theorem jmpGoesToRegister : Obligations.JmpGoesToRegister := by
  unfold Obligations.JmpGoesToRegister
  refine fun a s => ⟨fun x => rfl, fun i ha => ?_, fun i => exec_jmp_self, exec_of_one_operand_ge rfl rfl⟩
  exact ⟨_, (Completed.jmp (ridx_of_val ha)).exec_eq, rfl, s.setPc_frame _⟩

/-- Settles O49: with Equal set JEQ uses its operand, as the target or as the cause of the exception; with Equal clear it
advances, whatever the operand. -/
theorem jeqJumpsIffEqual : Obligations.JeqJumpsIffEqual := by
  unfold Obligations.JeqJumpsIffEqual
  refine fun a s => ⟨fun x => rfl, fun i heq ha => ?taken, fun hne => ?notTaken, fun heq => ?badOperand⟩
  case taken => exact ⟨_, (Completed.jeqTaken heq (ridx_of_val ha)).exec_eq, rfl, s.setPc_frame _⟩
  case notTaken => exact ⟨_, (Completed.jeqNot hne).exec_eq, rfl, s.setPc_frame _⟩
  case badOperand => exact exec_of_one_operand_ge heq rfl

/-- Settles O50: with Equal clear JNE uses its operand, as the target or as the cause of the exception; with Equal set it
advances, whatever the operand. -/
theorem jneJumpsIffNotEqual : Obligations.JneJumpsIffNotEqual := by
  unfold Obligations.JneJumpsIffNotEqual
  refine fun a s => ⟨fun x => rfl, fun i hne ha => ?taken, fun heq => ?notTaken, fun hne => ?badOperand⟩
  case taken => exact ⟨_, (Completed.jneTaken hne (ridx_of_val ha)).exec_eq, rfl, s.setPc_frame _⟩
  case notTaken => exact ⟨_, (Completed.jneNot heq).exec_eq, rfl, s.setPc_frame _⟩
  case badOperand =>
    have huses : s.usesOperands (.jne a) = true := by rw [State.usesOperands, hne, Bool.not_false]
    exact exec_of_one_operand_ge huses rfl

end Sys2Proof.Machine
end

section
/-! PROOFS. 44_data_io.md: what LDI, LD, ST, PRN, PRA and HLT write and leave unchanged, and their exceptions. -/

namespace Sys2Proof.Machine

/-! ## LDI and LD: writing one register -/

/-- Settles O51: the completed LDI writes the immediate as it is, and only `x[a]` and `pc` change. -/
theorem ldiLoadsImmediateByte : Obligations.LdiLoadsImmediateByte := by
  unfold Obligations.LdiLoadsImmediateByte
  refine fun a imm s => ⟨rfl, fun i ha => ?_, exec_of_one_operand_ge rfl rfl⟩
  exact ⟨_, (Completed.ldi (ridx_of_val ha)).exec_eq, s.getReg_setReg_advance i imm 3, rfl,
    s.setReg_advance_frame i imm 3⟩

/-- Settles O52: the completed LD writes the byte read, whose address is a byte and so lies in memory, and only `x[a]` and
`pc` change. -/
theorem ldLoadsByteAtRegister : Obligations.LdLoadsByteAtRegister := by
  unfold Obligations.LdLoadsByteAtRegister
  refine fun a b s => ⟨rfl, fun i j ha hb => ?_, exec_of_two_operands_ge rfl rfl⟩
  exact ⟨_, (Completed.ld (regPair_of_val ha hb)).exec_eq, s.getReg_setReg_advance i _ 3, rfl,
    s.setReg_advance_frame i _ 3⟩

/-! ## ST: writing one byte of memory -/

/-- A write to a listed address stays within the frame. -/
theorem KeepsMemExcept.setMem_write {as : List Nat} (s : State) {a : Nat} (ha : a ∈ as) (v : Byte) :
    KeepsMemExcept as s (s.setMem (s.mem.write a v)) := by
  intro b hb
  have hne : a ≠ b := fun hab => hb (hab ▸ ha)
  rw [State.setMem_mem, s.mem.read_write_ne v hne]

/-- What storing the byte `v` at the address `a` and advancing leaves unchanged: all but that byte and `pc`. -/
theorem State.setMem_write_advance_frame (s : State) (a : Nat) (v : Byte) (n : Nat) :
    let t := (s.setMem (s.mem.write a v)).advance n
    KeepsRegsExcept [] s t ∧ KeepsMemExcept [a] s t ∧ KeepsControl s t ∧ t.out = s.out :=
  ⟨KeepsRegsExcept.refl [] s, KeepsMemExcept.setMem_write s (List.mem_singleton_self a) v, ⟨rfl, rfl, rfl⟩, rfl⟩

/-- Settles O53: the completed ST writes `x[b]` at the address `x[a]`, and only that byte and `pc` change. -/
theorem stStoresByteAtRegister : Obligations.StStoresByteAtRegister := by
  unfold Obligations.StStoresByteAtRegister
  refine fun a b s => ⟨rfl, fun i j ha hb => ?_, exec_of_two_operands_ge rfl rfl⟩
  exact ⟨_, (Completed.st (regPair_of_val ha hb)).exec_eq, s.mem.read_write_same _ _, rfl,
    s.setMem_write_advance_frame _ _ 3⟩

/-! ## PRN and PRA: one event -/

/-- What emitting an event and advancing leaves unchanged: all but the output stream and `pc`. -/
theorem State.emit_advance_frame (s : State) (e : Event) (n : Nat) :
    KeepsRegsExcept [] s ((s.emit e).advance n) ∧ KeepsMemExcept [] s ((s.emit e).advance n) ∧
      KeepsControl s ((s.emit e).advance n) :=
  ⟨KeepsRegsExcept.refl [] s, KeepsMemExcept.refl [] s, rfl, rfl, rfl⟩

/-- Settles O54: the completed PRN appends a decimal event, and only the output stream and `pc` change. -/
theorem prnEmitsDecimalEvent : Obligations.PrnEmitsDecimalEvent := by
  unfold Obligations.PrnEmitsDecimalEvent
  refine fun a s => ⟨fun x => rfl, fun i ha => ?_, exec_of_one_operand_ge rfl rfl⟩
  exact ⟨_, (Completed.prn (ridx_of_val ha)).exec_eq, rfl, rfl, s.emit_advance_frame _ 2⟩

/-- Settles O55: the completed PRA appends a character event, and only the output stream and `pc` change. -/
theorem praEmitsCharacterEvent : Obligations.PraEmitsCharacterEvent := by
  unfold Obligations.PraEmitsCharacterEvent
  refine fun a s => ⟨fun x => rfl, fun i ha => ?_, exec_of_one_operand_ge rfl rfl⟩
  exact ⟨_, (Completed.pra (ridx_of_val ha)).exec_eq, rfl, rfl, s.emit_advance_frame _ 2⟩

/-! ## HLT -/

/-- A core that does not run has no next state (40_engine.md R57). -/
theorem step_ne_next_of_stopped {s : State} (h : s.running = false) (t : State) : step s ≠ .next t := by
  intro hstep
  obtain ⟨hrun, -⟩ := step_next hstep
  simp [h] at hrun

/-- A stopped core without a fault record is Halted (10_state.md R25). -/
theorem State.status_eq_halted {s : State} (hstop : s.running = false) (hfault : s.fault = none) :
    s.status = .halted := by
  simp [State.status, hstop, hfault]

/-- The fetch fault is taken at every `pc` from 0xFE to 0x100, and its value is the first address out of range
(40_engine.md R60). -/
theorem step_of_pc_gt {s : State} (hrun : s.running = true) (hgt : 0xFD < s.pc) (hle : s.pc ≤ 0x100) :
    step s = .next (s.takeException (.addressOutOfRange .memory 0x100)) := by
  have hvalue : max s.pc 256 = 0x100 := by omega
  rw [step_of_fetchDecode_error hrun (State.fetchDecode_of_gt hgt), hvalue]
  rfl

/-- Settles O56: HLT clears `running`, so no step follows; at 0xFE and 0xFF the fetch faults before the opcode byte is
decoded, so that the byte is a HLT plays no part. -/
theorem hltStopsTheCoreInPlace : Obligations.HltStopsTheCoreInPlace := by
  unfold Obligations.HltStopsTheCoreInPlace
  refine fun s => ⟨fun x y => rfl, ?completes, fun hrun hpc _ => ?fetchFault⟩
  case completes =>
    exact ⟨s.stop, Completed.hlt.exec_eq, rfl, rfl, KeepsRegsExcept.refl [] s, KeepsMemExcept.refl [] s, rfl, rfl, rfl,
      step_ne_next_of_stopped s.stop_running, State.status_eq_halted s.stop_running⟩
  case fetchFault => exact step_of_pc_gt hrun (by omega) (by omega)

end Sys2Proof.Machine
end

section
/-! PROOFS. 60_exceptions.md: what taking an exception writes, that a step which changes the fault record took an exception
and did nothing else, and that an instruction raises exactly where it has a cause. -/

namespace Sys2Proof.Machine

/-! ## Taking an exception -/

/-- The state after an exception and its record, written out (60_exceptions.md R93). -/
theorem State.takeException_eq (s : State) (e : Exn) :
    s.takeException e = { s with
      running := false
      fault := some {
        code := e.name.code, name := e.name, pc := s.pc
        op := if s.pc ≤ 0xFF then some (s.mem.read s.pc) else none
        space := e.space, value := e.value, tag := e.tag } } := by
  rw [State.takeException, State.recordOf, State.fetchedOp_eq]

/-- Settles O13: the code, the name, the space and the value of the two exceptions. -/
theorem takingAnExceptionWritesOnlyTheRecord : Obligations.TakingAnExceptionWritesOnlyTheRecord := by
  unfold Obligations.TakingAnExceptionWritesOnlyTheRecord
  exact fun s sp v => ⟨s.takeException_eq .undefinedOpcode, s.takeException_eq (.addressOutOfRange sp v)⟩

/-- The record names the byte at `pc`, and none where there is no memory (60_exceptions.md R93). -/
theorem State.recordOf_op (s : State) (e : Exn) :
    (s.recordOf e).op = if s.pc ≤ 0xFF then some (s.mem.read s.pc) else none := by
  rw [State.recordOf, State.fetchedOp_eq]

/-! ## An instruction raises exactly where it has a cause -/

/-- An instruction that completes has no cause of an exception: its operands name registers and SP stays in its bounds
(60_exceptions.md R92). -/
theorem Completed.not_cause {sp : Reg} {i : Instr} {s t : State} {m : Space} {v : Int} (h : Completed sp s i t) :
    ¬ Cause sp s i m v := by
  intro hcause
  cases hcause with
  | operand hbad => simp [h.badOperand?_eq_none] at hbad
  | push _ hzero | call _ hzero =>
    cases h
    omega
  | @pop a _ htop =>
    cases h with
    | @pop _ k _ hk hu hlt =>
      have hsame : a.toNat = sp.val ↔ k = sp := by rw [val_of_ridx hk, Fin.ext_iff]
      subst hu
      simp only [hsame, ← State.getReg_setReg] at htop
      omega
  | ret htop =>
    cases h
    omega

/-- The converse of `execWith_next` for an instruction that raises: each cause does raise its exception. -/
theorem Cause.execWith_eq {sp : Reg} {i : Instr} {s : State} {m : Space} {v : Int} (h : Cause sp s i m v) :
    execWith sp i s = .next (s.takeException (.addressOutOfRange m v)) := by
  obtain ⟨t, ht⟩ := execWith_total sp i s
  rcases execWith_next ht with hc | ⟨m', v', h', rfl⟩
  · exact absurd h hc.not_cause
  · obtain ⟨rfl, rfl⟩ := h.unique h'
    exact ht

/-! ## A step that changes the fault record -/

/-- Such a step took an exception: of the fetch or the decode, or of a cause of the decoded instruction. -/
theorem step_next_of_fault_ne {s t : State} (h : step s = .next t) (hne : t.fault ≠ s.fault) :
    ∃ e, t = s.takeException e ∧
      (s.fetchDecode = .error e ∨
        ∃ i m v, s.fetchDecode = .ok i ∧ Cause Config.spReg s i m v ∧ e = .addressOutOfRange m v) := by
  obtain ⟨-, ⟨e, he, ht⟩ | ⟨i, hi, hx⟩⟩ := step_next h
  · exact ⟨e, ht, .inl he⟩
  · rcases exec_next hx with hc | ⟨m, v, hcause, ht⟩
    · exact absurd hc.fault_eq hne
    · exact ⟨_, ht, .inr ⟨i, m, v, hi, hcause, rfl⟩⟩

/-- Settles O14: the step took an exception, and the record it writes is well-formed, whatever the exception. -/
theorem exceptionsArePrecise : Obligations.ExceptionsArePrecise := by
  unfold Obligations.ExceptionsArePrecise
  intro s t h hne
  obtain ⟨e, rfl, -⟩ := step_next_of_fault_ne h hne
  exact ⟨s.recordOf e, rfl, s.recordOf_wf e, rfl, s.recordOf_op e⟩

/-- Settles O15: the exception taken is of the decode, of the fetch or of a cause of the instruction, and each cause raises
its exception in the step that decodes the instruction. -/
theorem faultsHaveOnlyListedCauses : Obligations.FaultsHaveOnlyListedCauses := by
  unfold Obligations.FaultsHaveOnlyListedCauses
  refine ⟨fun s t r hpc hnone h hr => ?_, fun s i m v hrun hpc hd hcause => ?_⟩
  · obtain ⟨e, rfl, hraised⟩ := step_next_of_fault_ne h (by simp [hnone, hr])
    obtain rfl : s.recordOf e = r := Option.some.inj hr
    rcases hraised with he | ⟨i, m, v, hi, hcause, rfl⟩
    · rcases State.fetchDecode_error he with ⟨hgt, rfl⟩ | ⟨hle, rfl, op, hd⟩
      · have hvalue : max s.pc 256 = 0x100 := by omega
        exact .inr (.inl ⟨rfl, hgt, rfl, by rw [hvalue]; rfl⟩)
      · obtain ⟨hillegal, -⟩ := illegal_opcode_of_decode_error hd
        exact .inl ⟨rfl, hle, hillegal⟩
    · obtain ⟨hle, hd⟩ := State.fetchDecode_ok hi
      exact .inr (.inr ⟨i, m, v, hd, hle, hcause, rfl, rfl, rfl⟩)
  · calc step s = exec i s := step_of_fetchDecode_ok hrun (State.fetchDecode_of_decode hpc hd)
      _ = execWith Config.spReg i s := exec_eq_execWith i s
      _ = .next (s.takeException (.addressOutOfRange m v)) := hcause.execWith_eq

end Sys2Proof.Machine
end

section
/-! PROOFS. 70_reset_and_hazards.md: the state after reset, what each answer of the host's `load` is, and the invariant that
both meet. -/

namespace Sys2Proof.Machine

/-! ## The state after reset -/

/-- Settles O29: memory is empty, `pc` is 0 and there is no fault record. -/
theorem resetMeetsInvariant : Obligations.ResetMeetsInvariant := by
  unfold Obligations.ResetMeetsInvariant
  intro sp fl
  refine ⟨rfl, Nat.zero_le _, fun r hr => ?_⟩
  cases hr

/-- Settles O31, field by field; memory by its read after reset. -/
theorem resetRestOfState : Obligations.ResetRestOfState := by
  unfold Obligations.ResetRestOfState
  exact ⟨fun sp fl => ⟨rfl, rfl, State.read_resetWith sp fl, rfl, rfl, rfl⟩, rfl⟩

/-! ## The answers of `load` -/

/-- Before the first step `load` looks at the image's length only, a loader failure in between or not (R106, log entry 7). -/
theorem Session.load_of_not_started {h : Session} (hphase : h.phase ≠ .started) (image : List Byte) :
    h.load image = if image.length ≤ 256 then ({ h with core := h.core.loadImage image }, .success)
      else ({ h with phase := .loadFailed }, .refused .imageTooLong) := by
  obtain ⟨core, phase⟩ := h
  cases phase with
  | ready => rfl
  | loadFailed => rfl
  | started => exact absurd rfl hphase

/-- Once a step has been taken every load is refused (R106). -/
theorem Session.load_of_started {h : Session} (hphase : h.phase = .started) (image : List Byte) :
    h.load image = (h, .refused .notBeforeFirstStep) := by
  rw [Session.load, hphase]

/-- No load ends a loader failure: only the next reset does (R108, log entry 7). -/
theorem Session.load_phase_of_loadFailed {h : Session} (hphase : h.phase = .loadFailed) (image : List Byte) :
    (h.load image).1.phase = .loadFailed := by
  have hne : h.phase ≠ .started := by simp [hphase]
  rw [Session.load_of_not_started hne]
  split
  · exact hphase
  · rfl

/-! ## The host's step and the phase -/

theorem Session.step_of_loadFailed {h : Session} (hphase : h.phase = .loadFailed) :
    h.step = .refused .coreNotStarted := by
  rw [Session.step, Session.stepBy, hphase]

/-- A step that has a next session was a step of the core, and with it the core is started. -/
theorem Session.phase_of_step_next {h h' : Session} (hstep : h.step = .next h') : h'.phase = .started := by
  rw [Session.step, Session.stepBy] at hstep
  split at hstep
  · cases hstep
  all_goals
    split at hstep
    · cases hstep
      rfl
    · cases hstep
    · cases hstep

/-- Settles O33, by the answer of `load` in each phase and for each length of the image. -/
theorem loadIsDefinedOnlyBeforeFirstStep : Obligations.LoadIsDefinedOnlyBeforeFirstStep := by
  unfold Obligations.LoadIsDefinedOnlyBeforeFirstStep
  refine fun h image => ⟨fun hphase hle => ?_, fun hphase hgt => ?_, fun hphase => Session.load_of_started hphase image,
    fun h' hstep => Session.load_of_started (Session.phase_of_step_next hstep) image,
    fun hphase => Session.step_of_loadFailed (Session.load_phase_of_loadFailed hphase image), rfl⟩
  · rw [Session.load_of_not_started hphase, if_pos hle]
    rfl
  · rw [Session.load_of_not_started hphase, if_neg (Nat.not_le_of_lt hgt)]
    exact ⟨rfl, rfl, Session.step_of_loadFailed rfl⟩

/-! ## Loading keeps the invariant -/

/-- Settles O34: an image of at most 256 bytes is written inside 0..0xFF, so memory keeps its canonical form; `pc`, the
running flag and the fault record stay. -/
theorem loadKeepsInvariant : Obligations.LoadKeepsInvariant := by
  unfold Obligations.LoadKeepsInvariant
  rintro s image ⟨hmem, hpc, hfault⟩ hlen
  exact ⟨Memory.wf_writeBytes image hmem (by omega), hpc, hfault⟩

end Sys2Proof.Machine
end
